-- ==== Sys2Proof/Word.lean ====
section
/-! DEFINITION. The word types of the hardware (00_scope R8, R10): bytes, 16-bit opcodes and addresses, the 4-bit and 12-bit
opcode fields. All values are unsigned (R10), so no signed reading of a word is ever taken. -/

namespace Sys2Proof

/-- A memory cell or a general register: 8 bits (R21, R34). -/
abbrev Byte := BitVec 8

/-- An instruction word: 16 bits (R80). -/
abbrev Opcode := BitVec 16

/-- The 16-bit registers I and PC and the stack's entries (R23, R26, R27). -/
abbrev Addr := BitVec 16

/-- A register index, from a 4-bit opcode field: never out of range (R21). -/
abbrev RegIx := BitVec 4

/-- A 4-bit opcode field that is not a register index: DXYN's N, the undecoded nibble of 5XYz and 9XYz (R82, R87). -/
abbrev Nibble := BitVec 4

/-- The 12-bit address field NNN (R82). -/
abbrev Addr12 := BitVec 12

/-- The key matrix: bit k is key k (R30). -/
abbrev Keys := BitVec 16

/-- The framebuffer: 32 rows of 64 pixels, row 0 at the top and column 0 at the left (R31). -/
abbrev Framebuffer := Vector (Vector Bool 64) 32

/-- VF, the register the flag-writing instructions name implicitly (R22). -/
abbrev vf : RegIx := 0xF#4

/-- V0, the register BNNN names implicitly (R124). -/
abbrev v0 : RegIx := 0x0#4

end Sys2Proof
end

