-- ==== Sys2Proof/Syntax.lean ====
section
/-! DEFINITION. The instruction set: one constructor per row of 30_encoding R86, in the table's order. Every field an encoding
holds is an operand here, also the ones the instruction does not use (R87, R183, R184), so no bit of a word is lost. -/

namespace Sys2Proof

inductive Instr where
  /-- 00E0 CLS (R170). -/
  | cls
  /-- 00EE RET (R121). -/
  | ret
  /-- 1NNN JP (R122). -/
  | jp (nnn : Addr12)
  /-- 2NNN CALL (R123). -/
  | call (nnn : Addr12)
  /-- 3XKK SE_IMM (R131). -/
  | seImm (x : RegIx) (kk : Byte)
  /-- 4XKK SNE_IMM (R132). -/
  | sneImm (x : RegIx) (kk : Byte)
  /-- 5XYz SE_REG (R133); z is not decoded (R87). -/
  | seReg (x y : RegIx) (z : Nibble)
  /-- 6XKK LD_IMM (R142). -/
  | ldImm (x : RegIx) (kk : Byte)
  /-- 7XKK ADD_IMM (R143). -/
  | addImm (x : RegIx) (kk : Byte)
  /-- 8XY0 LD_REG (R144). -/
  | ldReg (x y : RegIx)
  /-- 8XY1 OR (R145). -/
  | orReg (x y : RegIx)
  /-- 8XY2 AND (R146). -/
  | andReg (x y : RegIx)
  /-- 8XY3 XOR (R147). -/
  | xorReg (x y : RegIx)
  /-- 8XY4 ADD_REG (R148). -/
  | addReg (x y : RegIx)
  /-- 8XY5 SUB (R149). -/
  | sub (x y : RegIx)
  /-- 8XY6 SHR (R150); y is unused (R87). -/
  | shr (x y : RegIx)
  /-- 8XY7 SUBN (R151). -/
  | subn (x y : RegIx)
  /-- 8XYE SHL (R152); y is unused (R87). -/
  | shl (x y : RegIx)
  /-- 9XYz SNE_REG (R134); z is not decoded (R87). -/
  | sneReg (x y : RegIx) (z : Nibble)
  /-- ANNN LD_I (R161). -/
  | ldI (nnn : Addr12)
  /-- BNNN JP_V0 (R124). -/
  | jpV0 (nnn : Addr12)
  /-- CXKK RND (R153). -/
  | rnd (x : RegIx) (kk : Byte)
  /-- DXYN DRW (R171). -/
  | drw (x y : RegIx) (n : Nibble)
  /-- EX9E SKP (R135). -/
  | skp (x : RegIx)
  /-- EXA1 SKNP (R136). -/
  | sknp (x : RegIx)
  /-- FX07 LD_VX_DT (R181). -/
  | ldVxDt (x : RegIx)
  /-- FX0A LD_VX_K, a placeholder; x is unused (R183). -/
  | ldVxK (x : RegIx)
  /-- FX15 LD_DT_VX (R182). -/
  | ldDtVx (x : RegIx)
  /-- FX18 LD_ST_VX, a placeholder; x is unused (R184). -/
  | ldStVx (x : RegIx)
  /-- FX1E ADD_I (R162). -/
  | addI (x : RegIx)
  /-- FX29 LD_F (R163). -/
  | ldF (x : RegIx)
  /-- FX33 LD_B (R164). -/
  | ldB (x : RegIx)
  /-- FX55 ST_REGS (R165). -/
  | stRegs (x : RegIx)
  /-- FX65 LD_REGS (R166). -/
  | ldRegs (x : RegIx)
  deriving DecidableEq, Repr

end Sys2Proof
end

