-- ==== Sys2Proof/WellFormed.lean ====
section
/-! DEFINITION. What a term must meet beyond its type. Every operand's range is its type (a register index cannot leave 0 to 15,
R21), so the only checks left are the canonical value of the fields an instruction does not use (30_encoding R87, R92) and the
size of a program image (20_memory R60). The decoder accepts non-canonical words and the machine runs them (R87). -/

namespace Sys2Proof

/-- The instruction is one the assembler of R92 writes: SHR and SHL with Y = 0, 5XYz and 9XYz with low nibble 0 (R87). -/
def Instr.canonical : Instr → Bool
  | .seReg _ _ z => z == 0#4
  | .sneReg _ _ z => z == 0#4
  | .shr _ y => y == 0#4
  | .shl _ y => y == 0#4
  | _ => true

/-- The image fits between PROG_BASE and the end of memory: at most 0xE00 bytes (R60, R206). -/
def imageFits (img : List Byte) : Bool := img.length ≤ 0xE00

end Sys2Proof
end

