-- ==== Sys2Proof/Decode.lean ====
section
/-! DEFINITION. The decoder and the encoder (30_encoding). Decoding is total: it pulls the fields of R82 out of the word, then
takes the two-level dispatch of R84; a word no row of R86 matches is rejected by the name of its class (R88). -/

namespace Sys2Proof

/-- Why a word or a byte list is no instruction. The classes of reserved words are R88 (a) to (d). -/
inductive Rejected where
  /-- Family 0x0 other than 00E0 and 00EE (R88 a). -/
  | reservedFamily0 (op : Opcode)
  /-- Family 0x8 with an undefined low nibble (R88 b). -/
  | reservedFamily8 (op : Opcode)
  /-- Family 0xE with an undefined low byte (R88 c). -/
  | reservedFamilyE (op : Opcode)
  /-- Family 0xF with an undefined low byte (R88 d). -/
  | reservedFamilyF (op : Opcode)
  /-- Fewer than the two bytes every instruction has (R80). A fetch never gives this: it always reads two bytes. -/
  | truncated
  deriving DecidableEq, Repr

/-- op[15:12] (R82). -/
def familyOf (op : Opcode) : Nibble := op.extractLsb' 12 4

/-- X = op[11:8] (R82). -/
def xOf (op : Opcode) : RegIx := op.extractLsb' 8 4

/-- Y = op[7:4] (R82). -/
def yOf (op : Opcode) : RegIx := op.extractLsb' 4 4

/-- N = op[3:0] (R82). -/
def nOf (op : Opcode) : Nibble := op.extractLsb' 0 4

/-- KK = op[7:0] (R82). -/
def kkOf (op : Opcode) : Byte := op.extractLsb' 0 8

/-- NNN = op[11:0] (R82). -/
def nnnOf (op : Opcode) : Addr12 := op.extractLsb' 0 12

/-- Family 0x0: all 16 bits are compared (R84). -/
def decodeFamily0 (op : Opcode) : Except Rejected Instr :=
  if op = 0x00E0#16 then .ok .cls
  else if op = 0x00EE#16 then .ok .ret
  else .error (.reservedFamily0 op)

/-- Family 0x8 selects on op[3:0] (R84). -/
def decodeFamily8 (op : Opcode) : Except Rejected Instr :=
  match nOf op with
  | 0x0#4 => .ok (.ldReg (xOf op) (yOf op))
  | 0x1#4 => .ok (.orReg (xOf op) (yOf op))
  | 0x2#4 => .ok (.andReg (xOf op) (yOf op))
  | 0x3#4 => .ok (.xorReg (xOf op) (yOf op))
  | 0x4#4 => .ok (.addReg (xOf op) (yOf op))
  | 0x5#4 => .ok (.sub (xOf op) (yOf op))
  | 0x6#4 => .ok (.shr (xOf op) (yOf op))
  | 0x7#4 => .ok (.subn (xOf op) (yOf op))
  | 0xE#4 => .ok (.shl (xOf op) (yOf op))
  | _ => .error (.reservedFamily8 op)

/-- Family 0xE selects on op[7:0] (R84). -/
def decodeFamilyE (op : Opcode) : Except Rejected Instr :=
  match kkOf op with
  | 0x9E#8 => .ok (.skp (xOf op))
  | 0xA1#8 => .ok (.sknp (xOf op))
  | _ => .error (.reservedFamilyE op)

/-- Family 0xF selects on op[7:0] (R84). -/
def decodeFamilyF (op : Opcode) : Except Rejected Instr :=
  match kkOf op with
  | 0x07#8 => .ok (.ldVxDt (xOf op))
  | 0x0A#8 => .ok (.ldVxK (xOf op))
  | 0x15#8 => .ok (.ldDtVx (xOf op))
  | 0x18#8 => .ok (.ldStVx (xOf op))
  | 0x1E#8 => .ok (.addI (xOf op))
  | 0x29#8 => .ok (.ldF (xOf op))
  | 0x33#8 => .ok (.ldB (xOf op))
  | 0x55#8 => .ok (.stRegs (xOf op))
  | 0x65#8 => .ok (.ldRegs (xOf op))
  | _ => .error (.reservedFamilyF op)

/-- Phase 5 and the first level of phase 6 (R105, R84): dispatch on the family. Families 0x5 and 0x9 have no finer dispatch: their
low nibble is not decoded (R87; DESIGN CHOICE to follow it, log 12). -/
def decodeWord (op : Opcode) : Except Rejected Instr :=
  match familyOf op with
  | 0x0#4 => decodeFamily0 op
  | 0x1#4 => .ok (.jp (nnnOf op))
  | 0x2#4 => .ok (.call (nnnOf op))
  | 0x3#4 => .ok (.seImm (xOf op) (kkOf op))
  | 0x4#4 => .ok (.sneImm (xOf op) (kkOf op))
  | 0x5#4 => .ok (.seReg (xOf op) (yOf op) (nOf op))
  | 0x6#4 => .ok (.ldImm (xOf op) (kkOf op))
  | 0x7#4 => .ok (.addImm (xOf op) (kkOf op))
  | 0x8#4 => decodeFamily8 op
  | 0x9#4 => .ok (.sneReg (xOf op) (yOf op) (nOf op))
  | 0xA#4 => .ok (.ldI (nnnOf op))
  | 0xB#4 => .ok (.jpV0 (nnnOf op))
  | 0xC#4 => .ok (.rnd (xOf op) (kkOf op))
  | 0xD#4 => .ok (.drw (xOf op) (yOf op) (nOf op))
  | 0xE#4 => decodeFamilyE op
  | _ => decodeFamilyF op

/-- The big-endian pairing of R52: the byte at the lower address is bits 15 to 8. -/
def wordOfBytes (hi lo : Byte) : Opcode := hi ++ lo

/-- The byte at the lower address (R52). -/
def hiByte (op : Opcode) : Byte := op.extractLsb' 8 8

/-- The byte at the higher address (R52). -/
def loByte (op : Opcode) : Byte := op.extractLsb' 0 8

/-- Decoding a byte list: the instruction its first two bytes hold, and the rest of the list. -/
def decodeBytes : List Byte → Except Rejected (Instr × List Byte)
  | hi :: lo :: rest =>
    match decodeWord (wordOfBytes hi lo) with
    | .ok i => .ok (i, rest)
    | .error r => .error r
  | _ => .error .truncated

/-- Format F-NNN (R81). -/
def encodeNNN (family : Nibble) (nnn : Addr12) : Opcode := family ++ nnn

/-- Format F-XKK and, with SS in KK's place, format F-XSS (R81). -/
def encodeXKK (family : Nibble) (x : RegIx) (kk : Byte) : Opcode := family ++ (x ++ kk)

/-- Formats F-XYS and F-XYN (R81). -/
def encodeXYN (family : Nibble) (x y : RegIx) (n : Nibble) : Opcode := family ++ (x ++ (y ++ n))

/-- The word of an instruction, from the formats of R81 and the match column of R86. -/
def encode : Instr → Opcode
  | .cls => 0x00E0#16
  | .ret => 0x00EE#16
  | .jp nnn => encodeNNN 0x1#4 nnn
  | .call nnn => encodeNNN 0x2#4 nnn
  | .seImm x kk => encodeXKK 0x3#4 x kk
  | .sneImm x kk => encodeXKK 0x4#4 x kk
  | .seReg x y z => encodeXYN 0x5#4 x y z
  | .ldImm x kk => encodeXKK 0x6#4 x kk
  | .addImm x kk => encodeXKK 0x7#4 x kk
  | .ldReg x y => encodeXYN 0x8#4 x y 0x0#4
  | .orReg x y => encodeXYN 0x8#4 x y 0x1#4
  | .andReg x y => encodeXYN 0x8#4 x y 0x2#4
  | .xorReg x y => encodeXYN 0x8#4 x y 0x3#4
  | .addReg x y => encodeXYN 0x8#4 x y 0x4#4
  | .sub x y => encodeXYN 0x8#4 x y 0x5#4
  | .shr x y => encodeXYN 0x8#4 x y 0x6#4
  | .subn x y => encodeXYN 0x8#4 x y 0x7#4
  | .shl x y => encodeXYN 0x8#4 x y 0xE#4
  | .sneReg x y z => encodeXYN 0x9#4 x y z
  | .ldI nnn => encodeNNN 0xA#4 nnn
  | .jpV0 nnn => encodeNNN 0xB#4 nnn
  | .rnd x kk => encodeXKK 0xC#4 x kk
  | .drw x y n => encodeXYN 0xD#4 x y n
  | .skp x => encodeXKK 0xE#4 x 0x9E#8
  | .sknp x => encodeXKK 0xE#4 x 0xA1#8
  | .ldVxDt x => encodeXKK 0xF#4 x 0x07#8
  | .ldVxK x => encodeXKK 0xF#4 x 0x0A#8
  | .ldDtVx x => encodeXKK 0xF#4 x 0x15#8
  | .ldStVx x => encodeXKK 0xF#4 x 0x18#8
  | .addI x => encodeXKK 0xF#4 x 0x1E#8
  | .ldF x => encodeXKK 0xF#4 x 0x29#8
  | .ldB x => encodeXKK 0xF#4 x 0x33#8
  | .stRegs x => encodeXKK 0xF#4 x 0x55#8
  | .ldRegs x => encodeXKK 0xF#4 x 0x65#8

/-- The instruction's two bytes as memory holds them, the lower address first (R52). -/
def encodeBytes (i : Instr) : List Byte := [hiByte (encode i), loByte (encode i)]

/-- The mask column of R86: which bits of a word select the instruction's row. -/
def maskOf : Instr → Opcode
  | .cls | .ret => 0xFFFF#16
  | .jp _ | .call _ | .seImm _ _ | .sneImm _ _ | .seReg _ _ _ | .ldImm _ _ | .addImm _ _ => 0xF000#16
  | .ldReg _ _ | .orReg _ _ | .andReg _ _ | .xorReg _ _ | .addReg _ _ | .sub _ _ | .shr _ _ | .subn _ _ | .shl _ _ => 0xF00F#16
  | .sneReg _ _ _ | .ldI _ | .jpV0 _ | .rnd _ _ | .drw _ _ _ => 0xF000#16
  | .skp _ | .sknp _ => 0xF0FF#16
  | .ldVxDt _ | .ldVxK _ | .ldDtVx _ | .ldStVx _ | .addI _ | .ldF _ | .ldB _ | .stRegs _ | .ldRegs _ => 0xF0FF#16

/-- The match column of R86. -/
def matchOf : Instr → Opcode
  | .cls => 0x00E0#16
  | .ret => 0x00EE#16
  | .jp _ => 0x1000#16
  | .call _ => 0x2000#16
  | .seImm _ _ => 0x3000#16
  | .sneImm _ _ => 0x4000#16
  | .seReg _ _ _ => 0x5000#16
  | .ldImm _ _ => 0x6000#16
  | .addImm _ _ => 0x7000#16
  | .ldReg _ _ => 0x8000#16
  | .orReg _ _ => 0x8001#16
  | .andReg _ _ => 0x8002#16
  | .xorReg _ _ => 0x8003#16
  | .addReg _ _ => 0x8004#16
  | .sub _ _ => 0x8005#16
  | .shr _ _ => 0x8006#16
  | .subn _ _ => 0x8007#16
  | .shl _ _ => 0x800E#16
  | .sneReg _ _ _ => 0x9000#16
  | .ldI _ => 0xA000#16
  | .jpV0 _ => 0xB000#16
  | .rnd _ _ => 0xC000#16
  | .drw _ _ _ => 0xD000#16
  | .skp _ => 0xE09E#16
  | .sknp _ => 0xE0A1#16
  | .ldVxDt _ => 0xF007#16
  | .ldVxK _ => 0xF00A#16
  | .ldDtVx _ => 0xF015#16
  | .ldStVx _ => 0xF018#16
  | .addI _ => 0xF01E#16
  | .ldF _ => 0xF029#16
  | .ldB _ => 0xF033#16
  | .stRegs _ => 0xF055#16
  | .ldRegs _ => 0xF065#16

/-- The instruction the decoder reads from a word given as a number: the word is laid out as memory holds it, high byte at the lower
address (R52), and those bytes are decoded. The bits above `nbits` are 0. -/
def decodeTableWord (nbits w : Nat) : Option Instr :=
  let op : Opcode := BitVec.ofNat 16 (w % 2 ^ nbits)
  match decodeBytes [hiByte op, loByte op] with
  | .ok (i, _) => some i
  | .error _ => none

end Sys2Proof
end

