-- ==== Sys2Proof/Machine/Params.lean ====
section
/-! DEFINITION. The default values of the parameters and of the scalar reset values (00_scope R8, R9; 10_state R37, R38). They
stand here so that State.reset and Config only name them. -/

namespace Sys2Proof.Machine

/-- The 80 font bytes of R38, glyph k at 5k. PRESUMED: the spec takes them from general knowledge (D19, G1; log 2). -/
def fontTable : List Byte :=
  [0xF0#8, 0x90#8, 0x90#8, 0x90#8, 0xF0#8] ++   -- 0
  [0x20#8, 0x60#8, 0x20#8, 0x20#8, 0x70#8] ++   -- 1
  [0xF0#8, 0x10#8, 0xF0#8, 0x80#8, 0xF0#8] ++   -- 2
  [0xF0#8, 0x10#8, 0xF0#8, 0x10#8, 0xF0#8] ++   -- 3
  [0x90#8, 0x90#8, 0xF0#8, 0x10#8, 0x10#8] ++   -- 4
  [0xF0#8, 0x80#8, 0xF0#8, 0x10#8, 0xF0#8] ++   -- 5
  [0xF0#8, 0x80#8, 0xF0#8, 0x90#8, 0xF0#8] ++   -- 6
  [0xF0#8, 0x10#8, 0x20#8, 0x40#8, 0x40#8] ++   -- 7
  [0xF0#8, 0x90#8, 0xF0#8, 0x90#8, 0xF0#8] ++   -- 8
  [0xF0#8, 0x90#8, 0xF0#8, 0x10#8, 0xF0#8] ++   -- 9
  [0xF0#8, 0x90#8, 0xF0#8, 0x90#8, 0x90#8] ++   -- A
  [0xE0#8, 0x90#8, 0xE0#8, 0x90#8, 0xE0#8] ++   -- B
  [0xF0#8, 0x80#8, 0x80#8, 0x80#8, 0xF0#8] ++   -- C
  [0xE0#8, 0x90#8, 0x90#8, 0x90#8, 0xE0#8] ++   -- D
  [0xF0#8, 0x80#8, 0xF0#8, 0x80#8, 0xF0#8] ++   -- E
  [0xF0#8, 0x80#8, 0xF0#8, 0x80#8, 0x80#8]      -- F

/-- MEM_SIZE (R8). -/
def memSize : Nat := 4096

/-- PC_LIMIT: a step that begins with PC at or beyond it halts (R8, R102). -/
def pcLimit : Nat := 0x1000

/-- PROG_BASE: where the loader puts the image (R8, R60). -/
def progBase : Nat := 0x200

/-- PC_RESET (R8, R23). -/
def resetPc : Addr := 0x200#16

/-- The reset value of I (R37; the spec's decision D2, log 3). -/
def resetI : Addr := 0x0000#16

/-- The reset value of DT (R37; the spec's decision D2, log 3). -/
def resetDt : Byte := 0x00#8

/-- SC_RESET (R9, R29, R37; the spec's decision D2, log 3). -/
def resetSc : Nat := 0

/-- STACK_DEPTH: unbounded (R9, R27; log 8). -/
def stackLimit : Option Nat := none

end Sys2Proof.Machine
end

