-- ==== Sys2Proof/Config.lean ====
section
/-! DEFINITION. What the implementation fixes (00_scope R9: FONT, SC_RESET, STACK_DEPTH) and the one free value, the random
byte. None of these is state. -/

namespace Sys2Proof

/-- FONT: the contents of memory 0x000 to 0x04F after reset (R9, R38). A claim about drawn digits is relative to this field. -/
def Config.font : List Byte := Machine.fontTable

/-- SC_RESET: the step counter after reset; only its parity matters (R9, U13). -/
def Config.scReset : Nat := Machine.resetSc

/-- STACK_DEPTH: `none` is the normative unbounded stack; `some d` is a finite build (R9, R195, D4). -/
def Config.stackDepth : Option Nat := Machine.stackLimit

/-- The FREE VALUE `rnd` (R107, R153, U10): the byte the n-th draw supplies. It has no body, so nothing can be proved of its
values and every claim holds for all of them; two draws obey no common law (log 4). -/
opaque Config.rnd : Nat → Byte

end Sys2Proof
end

