-- ==== Sys2Proof/Machine/State.lean ====
section
/-! DEFINITION. The Machine State (10_state R20: exactly eleven fields, and one field of the model's own), the reasons a step can
stop, and the state right after reset (R37, 70_reset R220). -/

namespace Sys2Proof.Machine

/-- The 4096 bytes of memory (R34), as the list of the cells that differ from the reset contents, addresses strictly rising. What
an address not listed reads as is `memDefault` (Ops.lean). -/
abbrev Memory := List Host.Cell

/-- The whole Machine State. Plain data. -/
structure State where
  /-- Memory: 4096 bytes, instructions and data alike (R34, R50). -/
  mem : Memory
  /-- V0 to VF (R21). -/
  v : Vector Byte 16
  /-- I, the index register (R26). -/
  i : Addr
  /-- PC (R23). -/
  pc : Addr
  /-- The return addresses, oldest first, the last pushed at the end (R27, R125). -/
  stack : List Addr
  /-- DT, the delay timer (R28). -/
  dt : Byte
  /-- The key matrix; only the host writes it (R30). -/
  keys : Keys
  /-- The framebuffer (R31). -/
  fb : Framebuffer
  /-- The draw flag; the core only sets it (R32). -/
  draw : Bool
  /-- The running flag; the core only clears it (R33). -/
  running : Bool
  /-- SC, the step counter, unbounded (R29). -/
  sc : Nat
  /-- THE MODEL'S OWN FIELD: which free random byte the next CXKK draws (R107, R153; log 4). -/
  rndIndex : Nat
  deriving DecidableEq, Repr

/-- Why a step stops. The hardware has no exception (R190), and every condition the spec decides an effect for takes that effect. -/
inductive Fault where
  /-- Raised by CALL alone, when a build with a finite STACK_DEPTH pushes onto a full stack, the one behaviour the spec leaves
  open without an effect (STACK_OVERFLOW_POLICY, R195, U11). Never raised with the normative unbounded stack (Config.stackDepth =
  none). Safe: the machine stops where a finite build would do something unstated (log 8). -/
  | stackOverflow (fetchAddress : Addr)
  deriving DecidableEq, Repr

/-- Why an instruction has no meaning here. -/
inductive Refusal where
  /-- Raised by no arm of exec: every instruction has its meaning. Safe. -/
  | notModelled (mnemonic : String)
  deriving DecidableEq, Repr

/-- What a step answers. -/
abbrev Result := Host.Outcome State Fault Refusal

/-- The state right after reset (R37, R220): the font in memory and zero elsewhere (nothing listed), every register zero, PC at
0x200, the stack empty, both flags false. `rndIndex` 0 is a DESIGN CHOICE (log 4): it is no field of
the spec's, and a host reset keeps it (Boundary.lean). -/
def State.reset : State where
  mem := []
  v := Vector.replicate 16 0x00#8
  i := resetI
  pc := resetPc
  stack := []
  dt := resetDt
  keys := 0x0000#16
  fb := Vector.replicate 32 (Vector.replicate 64 false)
  draw := false
  running := false
  sc := Config.scReset
  rndIndex := 0

end Sys2Proof.Machine
end

