-- ==== Sys2Proof/Machine/Ops.lean ====
section
/-! DEFINITION. The named operations over memory, registers, stack, framebuffer and the running flag. Every read and write of a
meaning goes through one of these. The hardware has no exception entry and no exception return (60_exceptions R190, R199); what
stands in their place is the halt, `State.halt`. -/

namespace Sys2Proof.Machine

/-! ## Memory (20_memory) -/

/-- What an address that memory does not list reads as: its reset contents, the font in 0x000 to 0x04F and 0x00 elsewhere (R34,
R40, R58). -/
def memDefault (a : Nat) : Byte := (Config.font[a]?).getD 0x00#8

/-- The byte listed for an address, else its reset contents. -/
def memLookup : Memory → Nat → Byte
  | [], a => memDefault a
  | (b, w) :: rest, a => if a = b then w else memLookup rest a

/-- The list without any cell for `a`. -/
def dropCell (m : Memory) (a : Nat) : Memory := m.filter (fun c => c.1 != a)

/-- Puts a cell before the first one with a higher address. -/
def addCell : Memory → Nat → Byte → Memory
  | [], a, w => [(a, w)]
  | c :: rest, a, w => if a < c.1 then (a, w) :: c :: rest else c :: addCell rest a w

/-- Makes address `a` of the list hold `w`; a cell that would hold its reset contents is not listed, so the canonical form is kept. -/
def memInsert (m : Memory) (a : Nat) (w : Byte) : Memory :=
  if w = memDefault a then dropCell m a else addCell (dropCell m a) a w

/-- MemRead(a, 1): the byte at `a mod 4096` (R11, R56). No side effect (R54). -/
def memRead (m : Memory) (a : Nat) : Byte := memLookup m (a % memSize)

/-- MemWrite(a, 1, w): stores at `a mod 4096` (R11, R56). -/
def memWrite (m : Memory) (a : Nat) (w : Byte) : Memory := memInsert m (a % memSize) w

/-- Every address of the list is at least `lo`, they rise strictly, lie in memory, and no cell holds its reset contents. -/
def Memory.wfFrom : Nat → Memory → Bool
  | _, [] => true
  | lo, (a, w) :: rest => decide (lo ≤ a ∧ a < memSize ∧ w ≠ memDefault a) && Memory.wfFrom (a + 1) rest

/-- The canonical form of memory: equal contents are equal lists. -/
def Memory.wf (m : Memory) : Bool := Memory.wfFrom 0 m

/-- Writes consecutive bytes in ascending address order (R53). -/
def memWriteList (m : Memory) (a : Nat) : List Byte → Memory
  | [] => m
  | w :: ws => memWriteList (memWrite m a w) (a + 1) ws

/-! ## General registers (10_state R21) -/

/-- V[x]. -/
def State.readV (s : State) (x : RegIx) : Byte := s.v[x.toNat]'x.isLt

/-- V[x] <- b. -/
def State.writeV (s : State) (x : RegIx) (b : Byte) : State := { s with v := s.v.set x.toNat b x.isLt }

/-! ## Stack (10_state R27) -/

/-- The stack becomes `l`. -/
def State.setStack (s : State) (l : List Addr) : State := { s with stack := l }

/-- push(a): appends. -/
def State.push (s : State) (a : Addr) : State := s.setStack (s.stack ++ [a])

/-- The stack is as deep as this build allows (R195); never, for the unbounded stack. -/
def State.stackFull (s : State) : Bool :=
  match Config.stackDepth with
  | none => false
  | some d => d ≤ s.stack.length

/-! ## Framebuffer (10_state R31, 45_display R173) -/

/-- FB[x mod 64, y mod 32]: the pixel in column x and row y, wrapped toroidally (R173). -/
def readPixel (fb : Framebuffer) (x y : Nat) : Bool :=
  (fb[y % 32]'(Nat.mod_lt y (by decide)))[x % 64]'(Nat.mod_lt x (by decide))

/-- FB[x mod 64, y mod 32] <- FB[x mod 64, y mod 32] xor 1 (R171, R173). -/
def flipPixel (fb : Framebuffer) (x y : Nat) : Framebuffer :=
  fb.set (y % 32)
    ((fb[y % 32]'(Nat.mod_lt y (by decide))).set (x % 64) (!readPixel fb x y) (Nat.mod_lt x (by decide)))
    (Nat.mod_lt y (by decide))

/-- The framebuffer with all 2048 pixels 0 (R170). -/
def clearFramebuffer : Framebuffer := Vector.replicate 32 (Vector.replicate 64 false)

/-- The framebuffer becomes `fb` and the draw flag is set: what both display instructions end with (R32, R170, R171). -/
def State.showFrame (s : State) (fb : Framebuffer) : State := { s with fb := fb, draw := true }

/-! ## Memory, I and DT as state fields -/

/-- Memory becomes `m`. -/
def State.setMem (s : State) (m : Memory) : State := { s with mem := m }

/-- I <- a. -/
def State.setI (s : State) (a : Addr) : State := { s with i := a }

/-- DT <- b. -/
def State.setDt (s : State) (b : Byte) : State := { s with dt := b }

/-! ## Control -/

/-- PC <- a: a control transfer is a plain write of PC (R120). -/
def State.jump (s : State) (a : Addr) : State := { s with pc := a }

/-- PC <- PC + 2 when the condition holds: a skip (R130). PC is already past the skip instruction. -/
def State.skipIf (s : State) (c : Bool) : State := if c then s.jump (s.pc + 2#16) else s

/-- The halt: running <- false and nothing else (R11, R191, R192). -/
def State.halt (s : State) : State := { s with running := false }

end Sys2Proof.Machine
end

