-- ==== Sys2Proof/Machine/Cycle.lean ====
section
/-! DEFINITION. The phases of the step that every instruction shares (40_step_cycle R100 to R104), and what a reserved word does
(30_encoding R89). Step.lean only puts them in order. -/

namespace Sys2Proof.Machine

/-- Phase 1 (R101): the step counter goes up, and the delay timer goes down by one if the NEW value is even and the timer is above
zero. -/
def tick (s : State) : State :=
  { s with sc := s.sc + 1, dt := if (s.sc + 1) % 2 = 0 ∧ 0 < s.dt.toNat then s.dt - 1#8 else s.dt }

/-- The test of phase 2 (R102): PC is at or beyond 0x1000, unsigned. -/
def pcOutOfRange (s : State) : Bool := pcLimit ≤ s.pc.toNat

/-- Phase 3 (R103): the two bytes at PC and PC + 1, big-endian (R52). At 0x0FFF the second comes from 0x000 (R57; D7, DESIGN CHOICE
to follow it, log 5). -/
def fetch (s : State) : Opcode := wordOfBytes (memRead s.mem s.pc.toNat) (memRead s.mem (s.pc.toNat + 1))

/-- Phase 4 (R104): PC <- PC + 2, before dispatch. -/
def preAdvance (s : State) : State := s.jump (s.pc + 2#16)

/-- A step whose PC is out of range ends here (R102, R191). -/
def execHalt (s : State) : Result := .next s.halt

/-- A reserved word executes nothing (R89; D10, DESIGN CHOICE to follow it, log 6). -/
def execReserved (_why : Rejected) (s : State) : Result := .next s

/-- An opcode placed where the fetch at PC reads it: the high byte at PC, the low byte at PC + 1 (R52). -/
def placeWord (s : State) (op : Opcode) : State :=
  s.setMem (memWriteList s.mem s.pc.toNat [hiByte op, loByte op])

end Sys2Proof.Machine
end

