-- ==== Sys2Proof/Machine/Flags.lean ====
section
/-! DEFINITION. The flag computations. VF is the only flag register and a flag write stores 0x00 or 0x01 (10_state R22). -/

namespace Sys2Proof.Machine

/-- The byte a flag write stores (R22). -/
def flagByte (c : Bool) : Byte := if c then 0x01#8 else 0x00#8

/-- V[0xF] <- 1 if c else 0. -/
def State.setFlag (s : State) (c : Bool) : State := s.writeV vf (flagByte c)

/-- The carry of 8XY4: the 9-bit sum is above 255 (R148). -/
def addCarry (a b : Byte) : Bool := 255 < a.toNat + b.toNat

/-- The flag of 8XY5 and 8XY7: strictly greater, unsigned (R149, R151). -/
def strictlyGreater (a b : Byte) : Bool := b.toNat < a.toNat

/-- The bit 8XY6 shifts out: Vx mod 2 (R150). -/
def shiftedOutRight (a : Byte) : Bool := a.toNat % 2 = 1

/-- The bit 8XYE shifts out: 2 Vx div 256, the old bit 7 (R152). -/
def shiftedOutLeft (a : Byte) : Bool := a.toNat * 2 / 256 = 1

end Sys2Proof.Machine
end

