-- ==== Sys2Proof/Machine/Operands.lean ====
section
/-! DEFINITION. The operand forms (30_encoding R83): a register selected by X or Y is `State.readV`; an immediate is used at its own
width or zero-extended; the implied operands are V0, VF, I, DT, the stack, the keys and the random byte. -/

namespace Sys2Proof.Machine

/-- zext_16(NNN) (R83). -/
def zextNNN (nnn : Addr12) : Addr := nnn.setWidth 16

/-- zext_16(V[x]) (R11). -/
def zextByte (b : Byte) : Addr := b.setWidth 16

/-- I + offset, formed without truncation (R160); the access reduces it (`memRead`, `memWrite`). -/
def State.dataAddr (s : State) (offset : Nat) : Nat := s.i.toNat + offset

/-- The key an 8-bit value selects: its low 4 bits (R135, R136: "decided: index is the low 4 bits of Vx", D9; DESIGN CHOICE to
follow it, log 10). -/
def keyIndex (b : Byte) : Nat := b.toNat % 16

/-- key[k mod 16] (R30, R135). -/
def State.keyPressed (s : State) (b : Byte) : Bool := s.keys.getLsbD (keyIndex b)

/-- `rnd`, the byte this CXKK samples: a FREE VALUE (R107, R153; log 4). -/
def State.rndByte (s : State) : Byte := Config.rnd s.rndIndex

/-- The draw is used up: the next CXKK takes a fresh one (R153: "two CXKK instructions are independent draws"). -/
def State.rndTaken (s : State) : State := { s with rndIndex := s.rndIndex + 1 }

/-- The hundreds digit of R164. -/
def bcdHundreds (b : Byte) : Byte := BitVec.ofNat 8 (b.toNat / 100)

/-- The tens digit of R164. -/
def bcdTens (b : Byte) : Byte := BitVec.ofNat 8 (b.toNat / 10 % 10)

/-- The ones digit of R164. -/
def bcdOnes (b : Byte) : Byte := BitVec.ofNat 8 (b.toNat % 10)

/-- The registers V0 to VX, in order (R165). -/
def State.regsUpTo (s : State) (x : RegIx) : List Byte :=
  (List.range (x.toNat + 1)).map (fun r => s.readV (BitVec.ofNat 4 r))

/-- One byte of FX65: V[r] <- MemRead(I + r, 1) (R166). -/
def State.loadReg (s : State) (r : Nat) : State := s.writeV (BitVec.ofNat 4 r) (memRead s.mem (s.dataAddr r))

/-- The loop of FX65: r from 0 to X (R166). -/
def State.loadRegsUpTo (s : State) (x : RegIx) : State := (List.range (x.toNat + 1)).foldl State.loadReg s

end Sys2Proof.Machine
end

