-- ==== Sys2Proof/Machine/Alu.lean ====
section
/-! DEFINITION. Register load, arithmetic, logic, shifts and random (43_alu). The two assignments of a flag-writing instruction
happen in the order of its rule, the second on the registers the first left (R140; D12, DESIGN CHOICE to follow it, log 13). -/

namespace Sys2Proof.Machine

/-- 6XKK LD_IMM (R142). -/
def execLdImm (x : RegIx) (kk : Byte) (s : State) : Result := .next (s.writeV x kk)

/-- 7XKK ADD_IMM (R143): no flag. -/
def execAddImm (x : RegIx) (kk : Byte) (s : State) : Result := .next (s.writeV x (s.readV x + kk))

/-- 8XY0 LD_REG (R144). -/
def execLdReg (x y : RegIx) (s : State) : Result := .next (s.writeV x (s.readV y))

/-- 8XY1 OR (R145): no flag. -/
def execOrReg (x y : RegIx) (s : State) : Result := .next (s.writeV x (s.readV x ||| s.readV y))

/-- 8XY2 AND (R146): no flag. -/
def execAndReg (x y : RegIx) (s : State) : Result := .next (s.writeV x (s.readV x &&& s.readV y))

/-- 8XY3 XOR (R147): no flag. -/
def execXorReg (x y : RegIx) (s : State) : Result := .next (s.writeV x (s.readV x ^^^ s.readV y))

/-- 8XY4 ADD_REG (R148): the sum first, from the old registers; the carry is written last. -/
def execAddReg (x y : RegIx) (s : State) : Result :=
  .next ((s.writeV x (s.readV x + s.readV y)).setFlag (addCarry (s.readV x) (s.readV y)))

/-- 8XY5 SUB (R149): the flag is written first, then Vx - Vy on the registers as they then are. -/
def execSub (x y : RegIx) (s : State) : Result :=
  let f := s.setFlag (strictlyGreater (s.readV x) (s.readV y))
  .next (f.writeV x (f.readV x - f.readV y))

/-- 8XY6 SHR (R150): the flag is written first, then Vx div 2 on the registers as they then are. Vy is not read. -/
def execShr (x _y : RegIx) (s : State) : Result :=
  let f := s.setFlag (shiftedOutRight (s.readV x))
  .next (f.writeV x (f.readV x >>> 1))

/-- 8XY7 SUBN (R151): the flag is written first, then Vy - Vx on the registers as they then are. -/
def execSubn (x y : RegIx) (s : State) : Result :=
  let f := s.setFlag (strictlyGreater (s.readV y) (s.readV x))
  .next (f.writeV x (f.readV y - f.readV x))

/-- 8XYE SHL (R152): the shifted value first; the flag is written last. Vy is not read. -/
def execShl (x _y : RegIx) (s : State) : Result :=
  .next ((s.writeV x (s.readV x <<< 1)).setFlag (shiftedOutLeft (s.readV x)))

/-- CXKK RND (R153): the random byte is a free value. -/
def execRnd (x : RegIx) (kk : Byte) (s : State) : Result := .next (s.rndTaken.writeV x (s.rndByte &&& kk))

end Sys2Proof.Machine
end

