-- ==== Sys2Proof/Machine/Display.lean ====
section
/-! DEFINITION. The display instructions (45_display R170 to R176). -/

namespace Sys2Proof.Machine

/-- 00E0 CLS (R170): every pixel 0 and the draw flag set. -/
def execCls (s : State) : Result := .next (s.showFrame clearFramebuffer)

/-- Sprite bit j of a row: j = 0 is bit 7, the leftmost pixel (R171). -/
def spriteBit (b : Byte) (j : Nat) : Bool := b.getLsbD (7 - j)

/-- One column of the loop of R171: if the sprite bit is set, the pixel is flipped, and it is a collision if it is then 0 (R174).
Coordinates wrap in `flipPixel` and `readPixel` (R173; D14, DESIGN CHOICE to follow it, log 11). -/
def drawColumn (b : Byte) (x0 y : Nat) (acc : Framebuffer × Bool) (j : Nat) : Framebuffer × Bool :=
  if spriteBit b j then
    let fb := flipPixel acc.1 (x0 + j) y
    (fb, acc.2 || !readPixel fb (x0 + j) y)
  else acc

/-- One row of the loop of R171: the sprite byte at I + i, its 8 columns from the left. -/
def drawRow (s : State) (x0 y0 : Nat) (acc : Framebuffer × Bool) (i : Nat) : Framebuffer × Bool :=
  (List.range 8).foldl (drawColumn (memRead s.mem (s.dataAddr i)) x0 (y0 + i)) acc

/-- The loop of R171 over rows 0 to N - 1: the framebuffer after it and whether a lit pixel was turned off. -/
def drawSprite (s : State) (x0 y0 n : Nat) : Framebuffer × Bool :=
  (List.range n).foldl (drawRow s x0 y0) (s.fb, false)

/-- DXYN DRW (R171): the coordinates are read before VF is written (R175; D13, DESIGN CHOICE to follow it, log 15); VF becomes
the collision flag (R174) and the draw flag is set, always (R172). -/
def execDrw (x y : RegIx) (n : Nibble) (s : State) : Result :=
  let d := drawSprite s (s.readV x).toNat (s.readV y).toNat n.toNat
  .next ((s.showFrame d.1).setFlag d.2)

end Sys2Proof.Machine
end

