-- ==== Sys2Proof/Machine/Flow.lean ====
section
/-! DEFINITION. Control transfer (41_flow): 00EE, 1NNN, 2NNN, BNNN. PC is already A + 2 when a meaning begins (R104). -/

namespace Sys2Proof.Machine

/-- 00EE RET (R121): pop into PC. On the empty stack the spec's decided effect: running <- false and nothing else (R192, D5; DESIGN
CHOICE to follow it, log 7). -/
def execRet (s : State) : Result :=
  match s.stack.getLast? with
  | some a => .next ((s.setStack s.stack.dropLast).jump a)
  | none => .next s.halt

/-- 1NNN JP (R122). -/
def execJp (nnn : Addr12) (s : State) : Result := .next (s.jump (zextNNN nnn))

/-- 2NNN CALL (R123): push PC, then PC <- NNN. The fault exists only in a finite build (R195, log 8). -/
def execCall (nnn : Addr12) (s : State) : Result :=
  if s.stackFull then .fault (.stackOverflow (s.pc - 2#16))
  else .next ((s.push s.pc).jump (zextNNN nnn))

/-- BNNN JP_V0 (R124): a 16-bit sum, not reduced modulo 4096. -/
def execJpV0 (nnn : Addr12) (s : State) : Result := .next (s.jump (zextNNN nnn + zextByte (s.readV v0)))

end Sys2Proof.Machine
end

