-- ==== Sys2Proof/Machine/IndexMemory.lean ====
section
/-! DEFINITION. The index register and memory transfers (44_index_memory). No memory instruction changes I, and every access wraps
modulo 4096 (R160, R56; D6, DESIGN CHOICE to follow it, log 9). -/

namespace Sys2Proof.Machine

/-- ANNN LD_I (R161). -/
def execLdI (nnn : Addr12) (s : State) : Result := .next (s.setI (zextNNN nnn))

/-- FX1E ADD_I (R162): modulo 65536, no flag. -/
def execAddI (x : RegIx) (s : State) : Result := .next (s.setI (s.i + zextByte (s.readV x)))

/-- FX29 LD_F (R163): the whole byte times 5. -/
def execLdF (x : RegIx) (s : State) : Result := .next (s.setI (zextByte (s.readV x) * 5#16))

/-- FX33 LD_B (R164): hundreds, tens, ones at I, I + 1, I + 2. -/
def execLdB (x : RegIx) (s : State) : Result :=
  let b := s.readV x
  .next (s.setMem (memWriteList s.mem (s.dataAddr 0) [bcdHundreds b, bcdTens b, bcdOnes b]))

/-- FX55 ST_REGS (R165): V0 to VX at I to I + X. -/
def execStRegs (x : RegIx) (s : State) : Result :=
  .next (s.setMem (memWriteList s.mem (s.dataAddr 0) (s.regsUpTo x)))

/-- FX65 LD_REGS (R166): V0 to VX from I to I + X. -/
def execLdRegs (x : RegIx) (s : State) : Result := .next (s.loadRegsUpTo x)

end Sys2Proof.Machine
end

