-- ==== Sys2Proof/Machine/Skip.lean ====
section
/-! DEFINITION. Conditional skips (42_skip R130 to R136). -/

namespace Sys2Proof.Machine

/-- 3XKK SE_IMM (R131). -/
def execSeImm (x : RegIx) (kk : Byte) (s : State) : Result := .next (s.skipIf (s.readV x == kk))

/-- 4XKK SNE_IMM (R132). -/
def execSneImm (x : RegIx) (kk : Byte) (s : State) : Result := .next (s.skipIf (s.readV x != kk))

/-- 5XYz SE_REG (R133); the low nibble has no effect (R87; log 12). -/
def execSeReg (x y : RegIx) (_z : Nibble) (s : State) : Result := .next (s.skipIf (s.readV x == s.readV y))

/-- 9XYz SNE_REG (R134); the low nibble has no effect (R87; log 12). -/
def execSneReg (x y : RegIx) (_z : Nibble) (s : State) : Result := .next (s.skipIf (s.readV x != s.readV y))

/-- EX9E SKP (R135). -/
def execSkp (x : RegIx) (s : State) : Result := .next (s.skipIf (s.keyPressed (s.readV x)))

/-- EXA1 SKNP (R136). -/
def execSknp (x : RegIx) (s : State) : Result := .next (s.skipIf (!s.keyPressed (s.readV x)))

end Sys2Proof.Machine
end

