-- ==== Sys2Proof/Machine/TimerMisc.lean ====
section
/-! DEFINITION. Timer access and the placeholder no-operations (46_timer_misc). The step's own tick comes before them (R110). -/

namespace Sys2Proof.Machine

/-- FX07 LD_VX_DT (R181). -/
def execLdVxDt (x : RegIx) (s : State) : Result := .next (s.writeV x s.dt)

/-- FX15 LD_DT_VX (R182). -/
def execLdDtVx (x : RegIx) (s : State) : Result := .next (s.setDt (s.readV x))

/-- FX0A LD_VX_K (R183): a silent no-op; it does not wait. -/
def execLdVxK (_x : RegIx) (s : State) : Result := .next s

/-- FX18 LD_ST_VX (R184): a silent no-op; there is no sound timer. -/
def execLdStVx (_x : RegIx) (s : State) : Result := .next s

end Sys2Proof.Machine
end

