-- ==== Sys2Proof/Machine/Step.lean ====
section
/-! DEFINITION. The one operation of the core, `step` (40_step_cycle R100). It reads no running flag (R109). -/

namespace Sys2Proof.Machine

/-- One step (R100): tick, termination check, fetch, pre-advance, decode, execute. -/
def step (s : State) : Host.Outcome State Fault Refusal :=
  let t := tick s
  if pcOutOfRange t then execHalt t
  else
    match decodeWord (fetch t) with
    | .ok i => exec i (preAdvance t)
    | .error why => execReserved why (preAdvance t)

/-- The state with the instruction word `w` stored where step fetches its next instruction. It stands for the loader (R60, R206):
nothing but memory changes (log 21). -/
def State.withFetchWord (s : State) (nbits w : Nat) : State := placeWord s (BitVec.ofNat 16 (w % 2 ^ nbits))

end Sys2Proof.Machine
end

