-- ==== Sys2Proof/Machine/Boundary.lean ====
section
/-! DEFINITION. What the host may do to the machine BETWEEN steps (60_exceptions R205 to R214, 70_reset R220 to R228), and runs in
which it does so (R234). No part of `step`: a host move is a separate transition (20_memory R62). The random byte has no move: it
is a free value (log 4). -/

namespace Sys2Proof.Machine

/-- The host's moves: the inputs of R213 but `step` and `rnd`. -/
inductive HostMove where
  /-- Reset: the Machine State is constructed anew (R220, R221). The random source is the host's and not reset (R210): the next draw
  stays the next one (DESIGN CHOICE, log 4). -/
  | reset
  /-- The loader copies an image to 0x200 upward (R60, R206). -/
  | load (img : List Byte)
  /-- `start`: running <- true (R226). -/
  | start
  /-- The input adapter sets all 16 keys (R207). -/
  | setKeys (k : Keys)
  /-- The renderer clears the draw flag (R208). -/
  | clearDraw
  deriving DecidableEq, Repr

/-- When a move is the host's to make: a load only of an image that fits, while running is false and before the first step after
reset (R206; D24, log 17). -/
def HostMove.allowed (m : HostMove) (s : State) : Bool :=
  match m with
  | .load img => imageFits img && !s.running && s.sc == Config.scReset
  | .reset | .start | .setKeys _ | .clearDraw => true

/-- The state after a move. -/
def HostMove.apply (m : HostMove) (s : State) : State :=
  match m with
  | .reset => { State.reset with rndIndex := s.rndIndex }
  | .load img => s.setMem (memWriteList s.mem progBase img)
  | .start => { s with running := true }
  | .setKeys k => { s with keys := k }
  | .clearDraw => { s with draw := false }

/-- The moves HostQuiet leaves the host (R228): key writes and draw clears. -/
def HostMove.quiet (m : HostMove) : Bool :=
  match m with
  | .setKeys _ | .clearDraw => true
  | .reset | .load _ | .start => false

/-- The state after several moves, the first of the list made first. -/
def HostMove.applyAll (ms : List HostMove) (s : State) : State := ms.foldl (fun s m => m.apply s) s

/-- What the host does in a run (R234): for each step, the moves it makes before that step. As many steps as entries. -/
abbrev Schedule := List (List HostMove)

/-- The premise HostQuiet of R228: between steps the host only writes keys and clears draw. -/
def Schedule.quiet (h : Schedule) : Bool := h.all fun ms => ms.all HostMove.quiet

/-- A run with its host (R62, R234): before each step the moves scheduled for it, then the step. The answer is the state the last step
reached, before any later move. -/
def hostedRun : Schedule → State → Result
  | [], s => .next s
  | ms :: rest, s =>
    match step (HostMove.applyAll ms s) with
    | .next t => hostedRun rest t
    | .fault r => .fault r
    | .refused r => .refused r

/-- The framebuffer read port of R213: 6 bits of column, 5 of row. -/
def fbPort (s : State) (x : BitVec 6) (y : BitVec 5) : Bool := readPixel s.fb x.toNat y.toNat

/-- AfterReset + Loaded(img) + Started (R223, R228): the state a run begins in. -/
def launch (img : List Byte) : State := HostMove.start.apply ((HostMove.load img).apply State.reset)

end Sys2Proof.Machine
end

