-- ==== Sys2Proof/Machine/Conditions.lean ====
section
/-! DEFINITION. The seven conditions the spec marks with `raise` (60_exceptions R193 to R198). The hardware reports none of them and
the machine takes the decided effect of each (logs 5 to 11). This file computes, beside the machine, which of them the step from
a state meets, in the order of R198, so that a claim can exclude them. -/

namespace Sys2Proof.Machine

/-- The closed set of names of R193, each with its `info`. -/
inductive Condition where
  | fetchOverrun (pc : Addr)
  | reservedOpcode (op : Opcode)
  | stackUnderflow (fetchAddress : Addr)
  | stackOverflow (fetchAddress : Addr)
  | memAddressOverflow (address : Nat)
  | keyIndexRange (value : Byte)
  | drawWrapRange (column row : Nat)
  deriving DecidableEq, Repr

/-- MemAddressOverflow at one offset: the unreduced address is at or beyond 0x1000 (R194). -/
def memCondition (s : State) (offset : Nat) : List Condition :=
  if memSize ≤ s.dataAddr offset then [.memAddressOverflow (s.dataAddr offset)] else []

/-- DrawWrapRange at one sprite pixel: only a set bit computes a coordinate (R173). -/
def wrapCondition (b : Byte) (x0 y j : Nat) : List Condition :=
  if spriteBit b j ∧ (128 ≤ x0 + j ∨ 64 ≤ y) then [.drawWrapRange (x0 + j) y] else []

/-- One sprite row: the memory condition first, then its pixels from the left (R198). -/
def rowConditions (s : State) (x0 y0 i : Nat) : List Condition :=
  memCondition s i ++ (List.range 8).flatMap (wrapCondition (memRead s.mem (s.dataAddr i)) x0 (y0 + i))

/-- KeyIndexRange: the key index is above 15 (R135, R136). -/
def keyCondition (b : Byte) : List Condition := if 15 < b.toNat then [.keyIndexRange b] else []

/-- The conditions one instruction meets, in the order of its pseudocode; PC is already A + 2. -/
def conditionsOf (i : Instr) (s : State) : List Condition :=
  match i with
  | .ret => if s.stack = [] then [.stackUnderflow (s.pc - 2#16)] else []
  | .call _ => if s.stackFull then [.stackOverflow (s.pc - 2#16)] else []
  | .skp x | .sknp x => keyCondition (s.readV x)
  | .ldB _ => (List.range 3).flatMap (memCondition s)
  | .stRegs x | .ldRegs x => (List.range (x.toNat + 1)).flatMap (memCondition s)
  | .drw x y n => (List.range n.toNat).flatMap (rowConditions s (s.readV x).toNat (s.readV y).toNat)
  | _ => []

/-- The conditions the step from `s` meets, in the order of R198. -/
def raised (s : State) : List Condition :=
  let t := tick s
  if pcOutOfRange t then []
  else
    (if t.pc = 0x0FFF#16 then [.fetchOverrun t.pc] else []) ++
      match decodeWord (fetch t) with
      | .ok i => conditionsOf i (preAdvance t)
      | .error _ => [.reservedOpcode (fetch t)]

end Sys2Proof.Machine
end

