-- ==== Sys2Proof/Safety.lean ====
section
/-! DEFINITION. The terms claims are stated in: what a transition leaves unchanged, what each instruction may write (10_state R39),
the invariant of R25, reachability with host moves, the launch state (70_reset R228), runs with a quiet host (R234) and their end
(R237). -/

namespace Sys2Proof.Safety

open Sys2Proof.Machine

/-- What a transition may change. Everything not named here is unchanged; SC and the keys never appear, because no instruction
writes them (R12, R29, R30). -/
structure Touch where
  regs : List RegIx := []
  cells : List Nat := []
  i : Bool := false
  pc : Bool := false
  stack : Bool := false
  dt : Bool := false
  fb : Bool := false
  draw : Bool := false
  running : Bool := false
  rndIndex : Bool := false
  deriving DecidableEq, Repr

/-- The frame: `t` differs from `s` at most in what `f` names. Memory is compared byte by byte, through `memRead`. -/
def Unchanged (f : Touch) (s t : State) : Prop :=
  (∀ r, r ∉ f.regs → t.readV r = s.readV r) ∧
  (∀ a, a % memSize ∉ f.cells → memRead t.mem a = memRead s.mem a) ∧
  (f.i = false → t.i = s.i) ∧
  (f.pc = false → t.pc = s.pc) ∧
  (f.stack = false → t.stack = s.stack) ∧
  (f.dt = false → t.dt = s.dt) ∧
  (f.fb = false → t.fb = s.fb) ∧
  (f.draw = false → t.draw = s.draw) ∧
  (f.running = false → t.running = s.running) ∧
  (f.rndIndex = false → t.rndIndex = s.rndIndex) ∧
  t.keys = s.keys ∧ t.sc = s.sc

/-- The `count` byte addresses from I on, reduced modulo 4096 (R56, R160). -/
def cellsFrom (s : State) (count : Nat) : List Nat := (List.range count).map (fun o => s.dataAddr o % memSize)

/-- V0 to VX. -/
def regsTo (x : RegIx) : List RegIx := (List.range (x.toNat + 1)).map (BitVec.ofNat 4)

/-- The write set of each instruction: the last column of the table of R39. RND also uses up a free value (log 4). -/
def touches (i : Instr) (s : State) : Touch :=
  match i with
  | .cls => { fb := true, draw := true }
  | .ret => { stack := true, pc := true, running := true }
  | .jp _ => { pc := true }
  | .call _ => { stack := true, pc := true }
  | .seImm _ _ | .sneImm _ _ | .seReg _ _ _ | .sneReg _ _ _ | .skp _ | .sknp _ => { pc := true }
  | .ldImm x _ | .addImm x _ => { regs := [x] }
  | .ldReg x _ | .orReg x _ | .andReg x _ | .xorReg x _ => { regs := [x] }
  | .addReg x _ | .sub x _ | .shr x _ | .subn x _ | .shl x _ => { regs := [x, vf] }
  | .ldI _ | .addI _ | .ldF _ => { i := true }
  | .jpV0 _ => { pc := true }
  | .rnd x _ => { regs := [x], rndIndex := true }
  | .drw _ _ _ => { regs := [vf], fb := true, draw := true }
  | .ldVxDt x => { regs := [x] }
  | .ldVxK _ | .ldStVx _ => {}
  | .ldDtVx _ => { dt := true }
  | .ldB _ => { cells := cellsFrom s 3 }
  | .stRegs x => { cells := cellsFrom s (x.toNat + 1) }
  | .ldRegs x => { regs := regsTo x }

/-- The instruction the step from `s` executes, if any: none where the step halts (R102) or the word is reserved (R89). -/
def executed (s : State) : Option Instr :=
  if pcLimit ≤ s.pc.toNat then none
  else (decodeWord (wordOfBytes (memRead s.mem s.pc.toNat) (memRead s.mem (s.pc.toNat + 1)))).toOption

/-- Some set bit of an `n`-row sprite at I, placed at (x0, y0), falls on column `px` and row `py` after wrapping (R171, R173). -/
def SpriteCovers (s : State) (x0 y0 n px py : Nat) : Prop :=
  ∃ i j, i < n ∧ j < 8 ∧ (memRead s.mem (s.i.toNat + i)).getLsbD (7 - j) = true ∧ (x0 + j) % 64 = px ∧ (y0 + i) % 32 = py

/-- The invariant of R25 and of memory's canonical form: PC is at most 0x10FE, every return address lies in 0x0002 to 0x1001
(R121), memory is canonical. -/
def Invariant (s : State) : Prop :=
  s.pc.toNat ≤ 0x10FE ∧ (∀ a ∈ s.stack, 0x0002 ≤ a.toNat ∧ a.toNat ≤ 0x1001) ∧ s.mem.wf = true

/-- AfterReset (R220, R228): every field at its reset value. Which free random byte comes next is no field of the spec's (log 4). -/
def AfterReset (s : State) : Prop := s = { State.reset with rndIndex := s.rndIndex }

/-- A state some interleaving of steps and allowed host moves reaches from reset (R62, R223). -/
inductive Reachable : State → Prop
  | reset {s : State} : AfterReset s → Reachable s
  | step {s t : State} : Reachable s → Machine.step s = .next t → Reachable t
  | host {s : State} (m : HostMove) : Reachable s → m.allowed s = true → Reachable (m.apply s)

/-! ## The launch state (70_reset R228) -/

/-- Loaded(img) (R60, R228): the image from 0x200 upward, all other bytes as after reset, in canonical form (log 1). -/
def Loaded (img : List Byte) (s : State) : Prop :=
  imageFits img = true ∧ s.mem.wf = true ∧
  (∀ k, (h : k < img.length) → memRead s.mem (progBase + k) = img[k]) ∧
  (∀ a, a < memSize → (a < progBase ∨ progBase + img.length ≤ a) → memRead s.mem a = memRead State.reset.mem a)

/-- Started (R226, R228). -/
def Started (s : State) : Prop := s.running = true

/-- AfterReset + Loaded(img) + Started (R228, R237), the state a run begins in: loaded, started, and otherwise as after reset. -/
def Launched (img : List Byte) (s : State) : Prop :=
  Loaded img s ∧ Started s ∧ AfterReset { s with mem := State.reset.mem, running := State.reset.running }

/-! ## Runs with a host (70_reset R234, R237). HostQuiet of R228 is `Schedule.quiet`. -/

/-- No step of the run meets a named condition of R193: the run the source itself defines. -/
def MeetsNoCondition (h : Schedule) (s : State) : Prop :=
  ∀ n, (hn : n < h.length) → ∀ u, hostedRun (h.take n) s = .next u → raised (HostMove.applyAll h[n] u) = []

/-- No step of the run executes an instruction of which `p` holds. -/
def NeverExecutes (p : Instr → Prop) (h : Schedule) (s : State) : Prop :=
  ∀ n, (hn : n < h.length) → ∀ u, hostedRun (h.take n) s = .next u →
    ∀ i, executed (HostMove.applyAll h[n] u) = some i → ¬ p i

/-- The definition of R237, with a quiet host: `t` is the first state with running false that a step of the run reaches from `s`,
and its last step reaches it. -/
def EndsAfter (h : Schedule) (s t : State) : Prop :=
  h.quiet = true ∧ h ≠ [] ∧ hostedRun h s = .next t ∧ t.running = false ∧
    ∀ n, 0 < n → n < h.length → ∀ u, hostedRun (h.take n) s = .next u → u.running = true

/-- A clean halt: the last step found PC out of range (R191, R237). The other end, 00EE on an empty stack, is no final state of a
claim (R192, U1; log 7). -/
def EndsClean (h : Schedule) (s t : State) : Prop :=
  EndsAfter h s t ∧ ∃ u, hostedRun h.dropLast s = .next u ∧ pcLimit ≤ u.pc.toNat

end Sys2Proof.Safety
end

