-- ==== Sys2Proof/Certificates/Slice0/Obligations.lean ====
section
/-! DEFINITION. The statements for the provers, in the order of the spec's files. A statement rests on plain rules of the spec where
its docstring names rules only; where it names a decision D<n> or a log entry, that part is the spec's own decision or the model's
choice. -/

open Sys2Proof Sys2Proof.Machine Sys2Proof.Safety

/-! ## Reset and the whole state (10_state, 70_reset) -/

/-- R37, R220: every field after reset. I, DT, SC, the draw flag and the framebuffer are the spec's decision D2 (log 3), the font is
the parameter FONT (D19, log 2). -/
def Obligations.ResetPutsEveryFieldAtItsValue : Prop :=
  Config.font.length = 80 ∧
  (∀ a, a < 80 → memRead State.reset.mem a = Config.font[a]?.getD 0x00#8) ∧
  (∀ a, 80 ≤ a → a < 4096 → memRead State.reset.mem a = 0x00#8) ∧
  (∀ r, State.reset.readV r = 0x00#8) ∧
  State.reset.pc = 0x200#16 ∧ State.reset.stack = [] ∧ State.reset.keys = 0#16 ∧ State.reset.running = false ∧
  State.reset.i = 0#16 ∧ State.reset.dt = 0x00#8 ∧ State.reset.sc = Config.scReset ∧ State.reset.draw = false ∧
  (∀ x y, readPixel State.reset.fb x y = false)

/-- The invariant holds at reset (R25, R37). -/
def Obligations.ResetMeetsTheInvariant : Prop := Invariant State.reset

/-- R25 and memory's canonical form: every step from every state that meets the invariant keeps it. -/
def Obligations.StepKeepsTheInvariant : Prop := ∀ s t : State, Invariant s → step s = .next t → Invariant t

/-- The host's moves keep it too (R206, R207, R208, R220, R226). -/
def Obligations.HostMovesKeepTheInvariant : Prop :=
  ∀ (m : HostMove) (s : State), Invariant s → m.allowed s = true → Invariant (m.apply s)

/-- R206 to R208, R220, R226: what each host move writes, and that it leaves everything else (the list of moves is the spec's decision
D17, log 17). Which free random byte comes next is the model's own field, and reset keeps it (log 4). -/
def Obligations.HostMovesWriteOnlyTheirField : Prop :=
  ∀ s : State,
    HostMove.reset.apply s = { State.reset with rndIndex := s.rndIndex } ∧
    HostMove.start.apply s = { s with running := true } ∧
    (∀ k, (HostMove.setKeys k).apply s = { s with keys := k }) ∧
    HostMove.clearDraw.apply s = { s with draw := false } ∧
    (∀ img, imageFits img = true →
      (HostMove.load img).apply s = { s with mem := ((HostMove.load img).apply s).mem } ∧
      (∀ k, (h : k < img.length) → memRead ((HostMove.load img).apply s).mem (0x200 + k) = img[k]) ∧
      (∀ a, a < 4096 → (a < 0x200 ∨ 0x200 + img.length ≤ a) →
        memRead ((HostMove.load img).apply s).mem a = memRead s.mem a))

/-- R25: "From reset, PC takes only values in 0x0000 to 0x10FE", with every return address in 0x0002 to 0x1001 (R121), for every
interleaving of steps and of the moves `HostMove.allowed` admits (the spec's decisions D16, D17, D24, D25; log 17). -/
def Obligations.ReachablePcNeverLeavesItsRange : Prop :=
  ∀ s : State, Reachable s → s.pc.toNat ≤ 0x10FE ∧ ∀ a ∈ s.stack, 0x0002 ≤ a.toNat ∧ a.toNat ≤ 0x1001

/-- R12 and the last column of the table of R39, for all 34 instructions: an instruction changes at most what its row names. The
stored addresses of LD_B and ST_REGS are I + offset modulo 4096 (R56; D6, log 9). -/
def Obligations.InstructionsChangeOnlyTheirWriteSet : Prop :=
  ∀ (i : Instr) (s t : State), exec i s = .next t → Unchanged (touches i s) s t

/-- R223, R60, R206, R228: after reset, load and start, memory is the image from 0x200 and the reset contents elsewhere, running is
true, and every other field is as after reset. -/
def Obligations.LaunchLoadsTheImageVerbatim : Prop :=
  ∀ img : List Byte, imageFits img = true →
    (∀ k, (h : k < img.length) → memRead (launch img).mem (0x200 + k) = img[k]) ∧
    (∀ a, a < 4096 → (a < 0x200 ∨ 0x200 + img.length ≤ a) → memRead (launch img).mem a = memRead State.reset.mem a) ∧
    (launch img).pc = 0x200#16 ∧ (launch img).running = true ∧ (launch img).stack = [] ∧ (launch img).sc = Config.scReset ∧
    (∀ r, (launch img).readV r = 0x00#8) ∧ (launch img).i = 0#16 ∧ (launch img).dt = 0x00#8 ∧ (launch img).keys = 0#16 ∧
    (launch img).draw = false ∧ (∀ x y, readPixel (launch img).fb x y = false)

/-- R228: the premises AfterReset, Loaded(img) and Started leave one state, `launch img`, but for which free random byte comes next
(log 4). -/
def Obligations.LaunchPremisesLeaveOneState : Prop :=
  ∀ (img : List Byte) (s : State), imageFits img = true →
    (Launched img s ↔ s = { launch img with rndIndex := s.rndIndex })

/-! ## Encoding (30_encoding) -/

/-- R80 to R87: decoding the word of an instruction gives it back, for every instruction and every operand. -/
def Obligations.DecodeOfEncodeGivesTheInstruction : Prop := ∀ i : Instr, decodeWord (encode i) = .ok i

/-- R81, R82: a word that decodes is the word of what it decodes to, so no bit is dropped. -/
def Obligations.EncodeOfDecodeGivesTheWord : Prop :=
  ∀ (op : Opcode) (i : Instr), decodeWord op = .ok i → encode i = op

/-- R86: a word decodes to an instruction of a row exactly when (op and mask) = match of that row. The masks of rows 7 and 19 are
the spec's decision D11 (log 12). -/
def Obligations.WordsSelectRowsByMaskAndMatch : Prop :=
  (∀ (op : Opcode) (i : Instr), decodeWord op = .ok i → op &&& maskOf i = matchOf i) ∧
  (∀ (op : Opcode) (i : Instr), op &&& maskOf i = matchOf i →
    ∃ j, decodeWord op = .ok j ∧ maskOf j = maskOf i ∧ matchOf j = matchOf i)

/-- R88: the reserved words, class by class. -/
def Obligations.ReservedWordsAreTheFourClasses : Prop :=
  ∀ op : Opcode,
    (decodeWord op = .error (.reservedFamily0 op) ↔ op.toNat / 4096 = 0 ∧ op.toNat ≠ 0x00E0 ∧ op.toNat ≠ 0x00EE) ∧
    (decodeWord op = .error (.reservedFamily8 op) ↔
      op.toNat / 4096 = 8 ∧ op.toNat % 16 ∈ [0x8, 0x9, 0xA, 0xB, 0xC, 0xD, 0xF]) ∧
    (decodeWord op = .error (.reservedFamilyE op) ↔ op.toNat / 4096 = 0xE ∧ op.toNat % 256 ∉ [0x9E, 0xA1]) ∧
    (decodeWord op = .error (.reservedFamilyF op) ↔
      op.toNat / 4096 = 0xF ∧ op.toNat % 256 ∉ [0x07, 0x0A, 0x15, 0x18, 0x1E, 0x29, 0x33, 0x55, 0x65]) ∧
    (∀ why, decodeWord op = .error why →
      why = .reservedFamily0 op ∨ why = .reservedFamily8 op ∨ why = .reservedFamilyE op ∨ why = .reservedFamilyF op)

/-- R82, R86: words written out from the spec decode to the instructions they stand for, one per format and family. -/
def Obligations.WrittenOutWordsDecode : Prop :=
  decodeWord 0x00E0#16 = .ok .cls ∧ decodeWord 0x1234#16 = .ok (.jp 0x234#12) ∧
  decodeWord 0x3A07#16 = .ok (.seImm 0xA#4 0x07#8) ∧ decodeWord 0x8124#16 = .ok (.addReg 0x1#4 0x2#4) ∧
  decodeWord 0xC10F#16 = .ok (.rnd 0x1#4 0x0F#8) ∧ decodeWord 0xD015#16 = .ok (.drw 0x0#4 0x1#4 0x5#4) ∧
  decodeWord 0xE39E#16 = .ok (.skp 0x3#4) ∧ decodeWord 0xF265#16 = .ok (.ldRegs 0x2#4)

/-! ## The step (40_step_cycle) -/

/-- R100 to R106: with PC below 0x1000, a step whose word decodes is the execution of that instruction after the tick and the
pre-advance. -/
def Obligations.StepRunsTheDecodedInstruction : Prop :=
  ∀ (s : State) (i : Instr), s.pc.toNat < 0x1000 →
    decodeWord (wordOfBytes (memRead s.mem s.pc.toNat) (memRead s.mem (s.pc.toNat + 1))) = .ok i →
    step s = exec i { s with
      sc := s.sc + 1
      dt := if (s.sc + 1) % 2 = 0 ∧ 0 < s.dt.toNat then s.dt - 1#8 else s.dt
      pc := s.pc + 2#16 }

/-- R89: a reserved word is a no-operation after the step's common part (the spec's decision D10, log 6). -/
def Obligations.StepOnReservedWordOnlyAdvances : Prop :=
  ∀ (s : State) (why : Rejected), s.pc.toNat < 0x1000 →
    decodeWord (wordOfBytes (memRead s.mem s.pc.toNat) (memRead s.mem (s.pc.toNat + 1))) = .error why →
    step s = .next { s with
      sc := s.sc + 1
      dt := if (s.sc + 1) % 2 = 0 ∧ 0 < s.dt.toNat then s.dt - 1#8 else s.dt
      pc := s.pc + 2#16 }

/-- R102: with PC at or beyond 0x1000, the step's only effects are those of phase 1 and running <- false. -/
def Obligations.StepWithPcOutOfRangeHalts : Prop :=
  ∀ s : State, 0x1000 ≤ s.pc.toNat →
    step s = .next { s with
      sc := s.sc + 1
      dt := if (s.sc + 1) % 2 = 0 ∧ 0 < s.dt.toNat then s.dt - 1#8 else s.dt
      running := false }

/-- R108, R190, R234: every instruction, every step and every run with a host completes, from every state: no fault, no refusal. -/
def Obligations.EveryStepCompletes : Prop :=
  (∀ (i : Instr) (s : State), ∃ t, exec i s = .next t) ∧ (∀ s : State, ∃ t, step s = .next t) ∧
  ∀ (h : Schedule) (s : State), ∃ t, hostedRun h s = .next t

/-- R101: in every step SC goes up by one and DT goes down by one exactly when the new SC is even and DT is above zero, unless the
instruction is FX15, whose write comes after the tick (R110). -/
def Obligations.EveryStepCountsAndTicks : Prop :=
  ∀ s t : State, step s = .next t →
    t.sc = s.sc + 1 ∧
    ((∀ x, executed s ≠ some (.ldDtVx x)) →
      t.dt.toNat = if (s.sc + 1) % 2 = 0 then s.dt.toNat - 1 else s.dt.toNat) ∧
    (∀ x, executed s = some (.ldDtVx x) → t.dt = s.readV x)

/-- R111: over k consecutive steps without FX15, DT decreases by min(DT, number of even values among s + 1 to s + k), whatever keys a
quiet host writes and draw flags it clears in between (R234). A run of k steps alone is the schedule of k empty entries. -/
def Obligations.TimerCadenceOverAnyRun : Prop :=
  ∀ (h : Schedule) (s t : State), h.quiet = true → NeverExecutes (fun i => ∃ x, i = .ldDtVx x) h s →
    hostedRun h s = .next t →
    t.sc = s.sc + h.length ∧
    t.dt.toNat = s.dt.toNat - min s.dt.toNat ((List.range h.length).countP fun m => (s.sc + 1 + m) % 2 == 0)

/-- R109: the step neither reads nor requires the running flag. -/
def Obligations.StepIgnoresTheRunningFlag : Prop :=
  ∀ (s t : State) (b : Bool), step { s with running := true } = .next t →
    step { s with running := b } = .next { t with running := b && t.running }

/-- R30, R107: the key matrix is read by EX9E and EXA1 alone, and the random byte by CXKK alone. -/
def Obligations.OnlyTheirInstructionsReadKeysAndRandom : Prop :=
  (∀ (s t : State) (k : Keys), (∀ x, executed s ≠ some (.skp x) ∧ executed s ≠ some (.sknp x)) → step s = .next t →
    step { s with keys := k } = .next { t with keys := k }) ∧
  (∀ (s t : State) (n : Nat), (∀ x kk, executed s ≠ some (.rnd x kk)) → step s = .next t →
    step { s with rndIndex := n } = .next { t with rndIndex := n })

/-- R107, R153, R210: every draw of a history is a fresh one. A step uses up one free byte exactly if it executes CXKK, and no host move,
reset included, brings one back (the numbering is the model's, log 4). -/
def Obligations.EveryDrawIsFresh : Prop :=
  (∀ s t : State, step s = .next t →
    ((∀ x kk, executed s ≠ some (.rnd x kk)) → t.rndIndex = s.rndIndex) ∧
    (∀ x kk, executed s = some (.rnd x kk) → t.rndIndex = s.rndIndex + 1 ∧ t.readV x = (Config.rnd s.rndIndex &&& kk))) ∧
  ∀ (m : HostMove) (s : State), (m.apply s).rndIndex = s.rndIndex

/-- R234, R30, R207, R208: the schedule of a quiet host reaches a run through EX9E and EXA1 alone. Two schedules of the same length
give, where no step of the first run executes one of these, the same state but for the keys and the draw flag. Both runs draw the
same free bytes (log 4). -/
def Obligations.QuietHostActsThroughKeySkipsOnly : Prop :=
  ∀ (a b : Schedule) (s t : State), a.quiet = true → b.quiet = true → a.length = b.length →
    NeverExecutes (fun i => ∃ x, i = .skp x ∨ i = .sknp x) a s → hostedRun a s = .next t →
    ∃ k d, hostedRun b s = .next { t with keys := k, draw := d }

/-- R30, R32, R33: the core never writes a key, sets the draw flag exactly in CLS and DRW, and clears running exactly in the halting
step and in a RET on the empty stack (the spec's decision D5, log 7); it never clears draw and never sets running. -/
def Obligations.CoreSideOfTheHostFlags : Prop :=
  ∀ s t : State, step s = .next t →
    t.keys = s.keys ∧
    (t.draw = true ↔ s.draw = true ∨ executed s = some .cls ∨ ∃ x y n, executed s = some (.drw x y n)) ∧
    (t.running = true ↔ s.running = true ∧ s.pc.toNat < 0x1000 ∧ ¬ (executed s = some .ret ∧ s.stack = []))

/-- R27, R125: the stack of a step: CALL appends the address after it, RET drops the last, nothing else touches it. -/
def Obligations.OnlyCallAndReturnTouchTheStack : Prop :=
  ∀ s t : State, step s = .next t →
    t.stack =
      match executed s with
      | some (.call _) => s.stack ++ [s.pc + 2#16]
      | some .ret => s.stack.dropLast
      | _ => s.stack

/-! ## Control transfer (41_flow) -/

/-- R121: RET pops the last return address into PC. On the empty stack only running is cleared (the spec's decision D5, log 7). -/
def Obligations.ReturnPopsOrHalts : Prop :=
  (∀ (s : State) (older : List Addr) (a : Addr), s.stack = older ++ [a] →
    ∃ t, exec .ret s = .next t ∧ t.pc = a ∧ t.stack = older ∧ Unchanged { pc := true, stack := true } s t) ∧
  (∀ s : State, s.stack = [] → ∃ t, exec .ret s = .next t ∧ t.running = false ∧ Unchanged { running := true } s t)

/-- R122, R124: the words 1NNN and BNNN are JP and JP_V0, and these write PC and nothing else. The sum of JP_V0 is not reduced; where
it leaves memory the next step halts. -/
def Obligations.JumpsWriteOnlyPc : Prop :=
  ∀ (s : State) (nnn : Addr12),
    decodeWord (0x1#4 ++ nnn) = .ok (.jp nnn) ∧ decodeWord (0xB#4 ++ nnn) = .ok (.jpV0 nnn) ∧
    (∃ t, exec (.jp nnn) s = .next t ∧ t.pc.toNat = nnn.toNat ∧ Unchanged { pc := true } s t) ∧
    (∃ t, exec (.jpV0 nnn) s = .next t ∧ t.pc.toNat = nnn.toNat + (s.readV 0x0#4).toNat ∧ Unchanged { pc := true } s t ∧
      (0x1000 ≤ nnn.toNat + (s.readV 0x0#4).toNat → ∃ u, step t = .next u ∧ u.running = false ∧ u.pc = t.pc))

/-- R123: CALL pushes PC, which is already the address after it, and jumps. The stack is unbounded (R27, R195). -/
def Obligations.CallPushesAndJumps : Prop :=
  ∀ (s : State) (nnn : Addr12),
    ∃ t, exec (.call nnn) s = .next t ∧ t.stack = s.stack ++ [s.pc] ∧ t.pc.toNat = nnn.toNat ∧
      Unchanged { pc := true, stack := true } s t

/-- R123, R125: a RET that finds the stack as a CALL left it goes to the instruction after the CALL and restores the stack. -/
def Obligations.ReturnUndoesCall : Prop :=
  ∀ (s t u : State) (nnn : Addr12), exec (.call nnn) s = .next t → u.stack = t.stack →
    ∃ w, exec .ret u = .next w ∧ w.pc = s.pc ∧ w.stack = s.stack

/-! ## Skips (42_skip) -/

/-- R131, R132: the words 3XKK and 4XKK are the skips on an immediate. PC is already A + 2. -/
def Obligations.SkipsOnImmediate : Prop :=
  ∀ (s : State) (x : RegIx) (kk : Byte),
    decodeWord (0x3#4 ++ (x ++ kk)) = .ok (.seImm x kk) ∧ decodeWord (0x4#4 ++ (x ++ kk)) = .ok (.sneImm x kk) ∧
    (∃ t, exec (.seImm x kk) s = .next t ∧ t.pc = (if s.readV x = kk then s.pc + 2#16 else s.pc) ∧
      Unchanged { pc := true } s t) ∧
    (∃ t, exec (.sneImm x kk) s = .next t ∧ t.pc = (if s.readV x = kk then s.pc else s.pc + 2#16) ∧
      Unchanged { pc := true } s t)

/-- R133, R134: the skips on two registers, for every low nibble (the spec's decision D11, log 12). -/
def Obligations.SkipsOnRegisters : Prop :=
  ∀ (s : State) (x y : RegIx) (z : Nibble),
    (∃ t, exec (.seReg x y z) s = .next t ∧ t.pc = (if s.readV x = s.readV y then s.pc + 2#16 else s.pc) ∧
      Unchanged { pc := true } s t) ∧
    (∃ t, exec (.sneReg x y z) s = .next t ∧ t.pc = (if s.readV x = s.readV y then s.pc else s.pc + 2#16) ∧
      Unchanged { pc := true } s t)

/-- R135, R136: the skips on a key; the key index is Vx mod 16 (the spec's decision D9, log 10). -/
def Obligations.SkipsOnKeys : Prop :=
  ∀ (s : State) (x : RegIx),
    (∃ t, exec (.skp x) s = .next t ∧
      t.pc = (if s.keys.getLsbD ((s.readV x).toNat % 16) = true then s.pc + 2#16 else s.pc) ∧
      Unchanged { pc := true } s t) ∧
    (∃ t, exec (.sknp x) s = .next t ∧
      t.pc = (if s.keys.getLsbD ((s.readV x).toNat % 16) = true then s.pc else s.pc + 2#16) ∧
      Unchanged { pc := true } s t)

/-! ## Registers and arithmetic (43_alu) -/

/-- R142, R143: the words 6XKK and 7XKK are load and add immediate; no flag. -/
def Obligations.LoadAndAddImmediate : Prop :=
  ∀ (s : State) (x : RegIx) (kk : Byte),
    decodeWord (0x6#4 ++ (x ++ kk)) = .ok (.ldImm x kk) ∧ decodeWord (0x7#4 ++ (x ++ kk)) = .ok (.addImm x kk) ∧
    (∃ t, exec (.ldImm x kk) s = .next t ∧ t.readV x = kk ∧ Unchanged { regs := [x] } s t) ∧
    (∃ t, exec (.addImm x kk) s = .next t ∧ (t.readV x).toNat = ((s.readV x).toNat + kk.toNat) % 256 ∧
      Unchanged { regs := [x] } s t)

/-- R144 to R147: the words 8XY0 to 8XY3 are move and bitwise logic; no flag. -/
def Obligations.MoveAndLogic : Prop :=
  ∀ (s : State) (x y : RegIx),
    decodeWord (0x8#4 ++ (x ++ (y ++ 0x0#4))) = .ok (.ldReg x y) ∧
    decodeWord (0x8#4 ++ (x ++ (y ++ 0x1#4))) = .ok (.orReg x y) ∧
    decodeWord (0x8#4 ++ (x ++ (y ++ 0x2#4))) = .ok (.andReg x y) ∧
    decodeWord (0x8#4 ++ (x ++ (y ++ 0x3#4))) = .ok (.xorReg x y) ∧
    (∃ t, exec (.ldReg x y) s = .next t ∧ t.readV x = s.readV y ∧ Unchanged { regs := [x] } s t) ∧
    (∃ t, exec (.orReg x y) s = .next t ∧ t.readV x = (s.readV x ||| s.readV y) ∧ Unchanged { regs := [x] } s t) ∧
    (∃ t, exec (.andReg x y) s = .next t ∧ t.readV x = (s.readV x &&& s.readV y) ∧ Unchanged { regs := [x] } s t) ∧
    (∃ t, exec (.xorReg x y) s = .next t ∧ t.readV x = (s.readV x ^^^ s.readV y) ∧ Unchanged { regs := [x] } s t)

/-- R148: the sum modulo 256, then the carry in VF, which wins where X is 0xF. -/
def Obligations.AddSetsTheCarry : Prop :=
  ∀ (s : State) (x y : RegIx),
    ∃ t, exec (.addReg x y) s = .next t ∧
      (x ≠ vf → (t.readV x).toNat = ((s.readV x).toNat + (s.readV y).toNat) % 256) ∧
      (t.readV vf).toNat = (if 255 < (s.readV x).toNat + (s.readV y).toNat then 1 else 0) ∧
      Unchanged { regs := [x, vf] } s t

/-- R149, R151 with R140: the strict comparison goes to VF first, then the difference is taken of the registers as they then are
(the order is the spec's decision D12, log 13; it shows only where X or Y is 0xF). -/
def Obligations.SubtractionsWriteTheFlagFirst : Prop :=
  ∀ (s : State) (x y : RegIx),
    (∃ t, exec (.sub x y) s = .next t ∧
      (let g := if (s.readV y).toNat < (s.readV x).toNat then 1 else 0
       let now := fun r => if r = vf then g else (s.readV r).toNat
       (t.readV x).toNat = (now x + 256 - now y) % 256 ∧ (x ≠ vf → (t.readV vf).toNat = g)) ∧
      Unchanged { regs := [x, vf] } s t) ∧
    (∃ t, exec (.subn x y) s = .next t ∧
      (let g := if (s.readV x).toNat < (s.readV y).toNat then 1 else 0
       let now := fun r => if r = vf then g else (s.readV r).toNat
       (t.readV x).toNat = (now y + 256 - now x) % 256 ∧ (x ≠ vf → (t.readV vf).toNat = g)) ∧
      Unchanged { regs := [x, vf] } s t)

/-- R150 with R140: bit 0 goes to VF first, then Vx is halved; with X = 0xF the result is 0 (the spec's decision D12, log 13). Y has
no effect. -/
def Obligations.ShiftRightWritesTheFlagFirst : Prop :=
  ∀ (s : State) (x y : RegIx),
    ∃ t, exec (.shr x y) s = .next t ∧
      (x ≠ vf → (t.readV x).toNat = (s.readV x).toNat / 2 ∧ (t.readV vf).toNat = (s.readV x).toNat % 2) ∧
      (x = vf → t.readV vf = 0x00#8) ∧
      Unchanged { regs := [x, vf] } s t

/-- R152: Vx is doubled modulo 256, then VF is the old bit 7, which wins where X is 0xF. Y has no effect. -/
def Obligations.ShiftLeftSetsTheOldTopBit : Prop :=
  ∀ (s : State) (x y : RegIx),
    ∃ t, exec (.shl x y) s = .next t ∧
      (x ≠ vf → (t.readV x).toNat = (s.readV x).toNat * 2 % 256) ∧
      (t.readV vf).toNat = (s.readV x).toNat * 2 / 256 ∧
      Unchanged { regs := [x, vf] } s t

/-- The table of R154, column "this spec": VF as an operand of a flag-writing instruction (the spec's decision D12, log 13). -/
def Obligations.VfAsAnOperand : Prop :=
  ∀ (s : State) (r z : RegIx), r ≠ vf →
    (∃ t, exec (.addReg vf r) s = .next t ∧
      (t.readV vf).toNat = if 255 < (s.readV vf).toNat + (s.readV r).toNat then 1 else 0) ∧
    (∃ t, exec (.addReg r vf) s = .next t ∧
      (t.readV r).toNat = ((s.readV r).toNat + (s.readV vf).toNat) % 256 ∧
      (t.readV vf).toNat = if 255 < (s.readV r).toNat + (s.readV vf).toNat then 1 else 0) ∧
    (∃ t, exec (.addReg vf vf) s = .next t ∧ (t.readV vf).toNat = if 255 < 2 * (s.readV vf).toNat then 1 else 0) ∧
    (∃ t, exec (.sub vf r) s = .next t ∧
      (t.readV vf).toNat = ((if (s.readV r).toNat < (s.readV vf).toNat then 1 else 0) + 256 - (s.readV r).toNat) % 256) ∧
    (∃ t, exec (.sub r vf) s = .next t ∧
      (t.readV r).toNat =
        ((s.readV r).toNat + 256 - (if (s.readV vf).toNat < (s.readV r).toNat then 1 else 0)) % 256 ∧
      (t.readV vf).toNat = if (s.readV vf).toNat < (s.readV r).toNat then 1 else 0) ∧
    (∃ t, exec (.sub vf vf) s = .next t ∧ t.readV vf = 0x00#8) ∧
    (∃ t, exec (.shr vf z) s = .next t ∧ t.readV vf = 0x00#8) ∧
    (∃ t, exec (.subn vf r) s = .next t ∧
      (t.readV vf).toNat = ((s.readV r).toNat + 256 - (if (s.readV vf).toNat < (s.readV r).toNat then 1 else 0)) % 256) ∧
    (∃ t, exec (.subn r vf) s = .next t ∧
      (t.readV r).toNat =
        ((if (s.readV r).toNat < (s.readV vf).toNat then 1 else 0) + 256 - (s.readV r).toNat) % 256 ∧
      (t.readV vf).toNat = if (s.readV r).toNat < (s.readV vf).toNat then 1 else 0) ∧
    (∃ t, exec (.subn vf vf) s = .next t ∧ t.readV vf = 0x00#8) ∧
    (∃ t, exec (.shl vf z) s = .next t ∧ (t.readV vf).toNat = (s.readV vf).toNat / 128)

/-- R153: Vx is the step's random byte masked with KK. The byte is a free value (D15, log 4): the statement holds for all of them. -/
def Obligations.RandomIsMasked : Prop :=
  ∀ (s : State) (x : RegIx) (kk : Byte),
    ∃ t, exec (.rnd x kk) s = .next t ∧ t.readV x = (Config.rnd s.rndIndex &&& kk) ∧ (t.readV x &&& ~~~kk) = 0x00#8 ∧
      t.rndIndex = s.rndIndex + 1 ∧ Unchanged { regs := [x], rndIndex := true } s t

/-! ## Index register and memory (44_index_memory, 20_memory) -/

/-- R161, R163: the words ANNN and FX29 are LD_I and LD_F, which write I and nothing else. -/
def Obligations.IndexLoads : Prop :=
  (∀ nnn : Addr12, decodeWord (0xA#4 ++ nnn) = .ok (.ldI nnn)) ∧
  (∀ x : RegIx, decodeWord (0xF#4 ++ (x ++ 0x29#8)) = .ok (.ldF x)) ∧
  ∀ (s : State),
    (∀ nnn : Addr12, ∃ t, exec (.ldI nnn) s = .next t ∧ t.i.toNat = nnn.toNat ∧ Unchanged { i := true } s t) ∧
    (∀ x : RegIx, ∃ t, exec (.ldF x) s = .next t ∧ t.i.toNat = (s.readV x).toNat * 5 ∧ Unchanged { i := true } s t)

/-- R162: I + Vx modulo 65536, kept above 0x0FFF, no flag (the width and the wrap are the spec's decision D8, log 14). -/
def Obligations.IndexAddWrapsAtSixteenBits : Prop :=
  ∀ (s : State) (x : RegIx),
    ∃ t, exec (.addI x) s = .next t ∧ t.i.toNat = (s.i.toNat + (s.readV x).toNat) % 65536 ∧ Unchanged { i := true } s t

/-- R164: the three decimal digits of Vx at I, I + 1, I + 2, modulo 4096 (the spec's decision D6, log 9), and nothing else. -/
def Obligations.DecimalDigitsAreStored : Prop :=
  ∀ (s : State) (x : RegIx),
    ∃ t, exec (.ldB x) s = .next t ∧
      (memRead t.mem (s.dataAddr 0)).toNat = (s.readV x).toNat / 100 ∧
      (memRead t.mem (s.dataAddr 1)).toNat = (s.readV x).toNat / 10 % 10 ∧
      (memRead t.mem (s.dataAddr 2)).toNat = (s.readV x).toNat % 10 ∧
      Unchanged { cells := cellsFrom s 3 } s t

/-- R165: V0 to VX at I to I + X, modulo 4096 (the spec's decision D6, log 9), and nothing else; I is unchanged. -/
def Obligations.RegistersAreStored : Prop :=
  ∀ (s : State) (x : RegIx),
    ∃ t, exec (.stRegs x) s = .next t ∧
      (∀ r : RegIx, r.toNat ≤ x.toNat → memRead t.mem (s.dataAddr r.toNat) = s.readV r) ∧
      Unchanged { cells := cellsFrom s (x.toNat + 1) } s t

/-- R166: V0 to VX from I to I + X, modulo 4096 (the spec's decision D6, log 9), and nothing else; I and memory are unchanged. -/
def Obligations.RegistersAreLoaded : Prop :=
  ∀ (s : State) (x : RegIx),
    ∃ t, exec (.ldRegs x) s = .next t ∧
      (∀ r : RegIx, r.toNat ≤ x.toNat → t.readV r = memRead s.mem (s.dataAddr r.toNat)) ∧
      Unchanged { regs := regsTo x } s t

/-- R167: FX55 then FX65 with the same X and I restores V0 to VX, provided the stored bytes were not overwritten; FX33 then FX65 with
X = 2 leaves the digits. Wrapping addresses are included (the spec's decision D6, log 9). -/
def Obligations.StoreThenLoadRestores : Prop :=
  (∀ (s t u w : State) (x : RegIx), exec (.stRegs x) s = .next t →
    (∀ k, k ≤ x.toNat → memRead u.mem (s.dataAddr k) = memRead t.mem (s.dataAddr k)) → u.i = s.i →
    exec (.ldRegs x) u = .next w → ∀ r : RegIx, r.toNat ≤ x.toNat → w.readV r = s.readV r) ∧
  (∀ (s t u w : State) (x : RegIx), exec (.ldB x) s = .next t →
    (∀ k, k ≤ 2 → memRead u.mem (s.dataAddr k) = memRead t.mem (s.dataAddr k)) → u.i = s.i →
    exec (.ldRegs 0x2#4) u = .next w →
    (w.readV 0x0#4).toNat = (s.readV x).toNat / 100 ∧ (w.readV 0x1#4).toNat = (s.readV x).toNat / 10 % 10 ∧
    (w.readV 0x2#4).toNat = (s.readV x).toNat % 10)

/-- R64: a byte FX55 or FX33 stored, and nothing overwrote, is what a later fetch reads at its address, as the high byte of the word at
PC and as the low byte of the word before it. Addresses count modulo 4096 (the spec's decisions D6, D7; logs 5, 9). -/
def Obligations.FetchReadsWhatWasStored : Prop :=
  (∀ (s t u : State) (x r : RegIx), exec (.stRegs x) s = .next t → r.toNat ≤ x.toNat →
    memRead u.mem (s.dataAddr r.toNat) = memRead t.mem (s.dataAddr r.toNat) →
    (u.pc.toNat % 4096 = s.dataAddr r.toNat % 4096 → hiByte (fetch u) = s.readV r) ∧
    ((u.pc.toNat + 1) % 4096 = s.dataAddr r.toNat % 4096 → loByte (fetch u) = s.readV r)) ∧
  (∀ (s t u : State) (x : RegIx) (k : Nat), exec (.ldB x) s = .next t → k ≤ 2 →
    memRead u.mem (s.dataAddr k) = memRead t.mem (s.dataAddr k) →
    (u.pc.toNat % 4096 = s.dataAddr k % 4096 → (hiByte (fetch u)).toNat = (s.readV x).toNat / 10 ^ (2 - k) % 10) ∧
    ((u.pc.toNat + 1) % 4096 = s.dataAddr k % 4096 → (loByte (fetch u)).toNat = (s.readV x).toNat / 10 ^ (2 - k) % 10))

/-! ## Display (45_display) -/

/-- R170: the word 00E0 is CLS, which clears every pixel and sets the draw flag, and nothing else. -/
def Obligations.ClearDisplay : Prop :=
  decodeWord 0x00E0#16 = .ok .cls ∧
  ∀ s : State, ∃ t, exec .cls s = .next t ∧ (∀ x y, readPixel t.fb x y = false) ∧ t.draw = true ∧
    Unchanged { fb := true, draw := true } s t

/-- R171 to R175, the loop against its meaning pixel by pixel: a pixel is flipped exactly when the sprite covers it, VF is 1 exactly
when a covered pixel was lit, the draw flag is set, and nothing else changes. Sprite addresses wrap modulo 4096 and coordinates
modulo 64 and 32, and the coordinates are read before VF is written (the spec's decisions D6, D14, D13; logs 9, 11, 15). -/
def Obligations.DrawXorsTheSpritePixelwise : Prop :=
  ∀ (s : State) (x y : RegIx) (n : Nibble),
    ∃ t, exec (.drw x y n) s = .next t ∧
      (∀ px py, px < 64 → py < 32 →
        (SpriteCovers s (s.readV x).toNat (s.readV y).toNat n.toNat px py → readPixel t.fb px py = !readPixel s.fb px py) ∧
        (¬ SpriteCovers s (s.readV x).toNat (s.readV y).toNat n.toNat px py → readPixel t.fb px py = readPixel s.fb px py)) ∧
      ((∃ px py, SpriteCovers s (s.readV x).toNat (s.readV y).toNat n.toNat px py ∧ readPixel s.fb px py = true) →
        t.readV vf = 0x01#8) ∧
      ((¬ ∃ px py, SpriteCovers s (s.readV x).toNat (s.readV y).toNat n.toNat px py ∧ readPixel s.fb px py = true) →
        t.readV vf = 0x00#8) ∧
      t.draw = true ∧
      Unchanged { regs := [vf], fb := true, draw := true } s t

/-- R176: a second draw of the same sprite at the same place restores the framebuffer, and sets VF exactly when the first left a
pixel of the sprite lit. What the sprite covers
rests on the spec's decisions D14 for a start off the screen, D13 where X or Y is 0xF and D6 where I + i leaves memory (logs 11, 15,
9). -/
def Obligations.DrawingTwiceRestores : Prop :=
  ∀ (s t u w : State) (x y : RegIx) (n : Nibble), exec (.drw x y n) s = .next t →
    u.fb = t.fb → u.mem = s.mem → u.i = s.i → u.readV x = s.readV x → u.readV y = s.readV y →
    exec (.drw x y n) u = .next w →
    w.fb = s.fb ∧
    (w.readV vf = 0x01#8 ↔
      ∃ px py, SpriteCovers s (s.readV x).toNat (s.readV y).toNat n.toNat px py ∧ readPixel t.fb px py = true)

/-- R173: DXYN meets DrawWrapRange exactly where a set sprite bit has a column of 128 or more or a row of 64 or more; so with Vx at most
120 and Vy + N at most 64 no coordinate needs more than one wrap, and it never does. -/
def Obligations.DrawDomainNeedsAtMostOneWrap : Prop :=
  ∀ (s : State) (x y : RegIx) (n : Nibble),
    (∀ c r, Condition.drawWrapRange c r ∈ conditionsOf (.drw x y n) s ↔
      ∃ i j, i < n.toNat ∧ j < 8 ∧ (memRead s.mem (s.i.toNat + i)).getLsbD (7 - j) = true ∧
        c = (s.readV x).toNat + j ∧ r = (s.readV y).toNat + i ∧ (128 ≤ c ∨ 64 ≤ r)) ∧
    ((s.readV x).toNat ≤ 120 → (s.readV y).toNat + n.toNat ≤ 64 →
      ∀ c r, Condition.drawWrapRange c r ∉ conditionsOf (.drw x y n) s)

/-! ## Timer (46_timer_misc) -/

/-- R181, R182: FX07 reads DT after this step's tick; FX15 writes it after the tick, so the full value v survives the step, and without
another FX15 DT falls from v by one in every further step whose new SC is even, whatever a quiet host does, until it is 0 after
2v - 1 further steps or 2v, by the parity of SC. -/
def Obligations.TimerReadAndWrite : Prop :=
  (∀ x : RegIx, decodeWord (0xF#4 ++ (x ++ 0x07#8)) = .ok (.ldVxDt x) ∧
    decodeWord (0xF#4 ++ (x ++ 0x15#8)) = .ok (.ldDtVx x)) ∧
  (∀ (s : State) (x : RegIx),
    (∃ t, exec (.ldVxDt x) s = .next t ∧ t.readV x = s.dt ∧ Unchanged { regs := [x] } s t) ∧
    (∃ t, exec (.ldDtVx x) s = .next t ∧ t.dt = s.readV x ∧ Unchanged { dt := true } s t)) ∧
  (∀ (s : State) (x : RegIx), executed s = some (.ldVxDt x) →
    ∃ t, step s = .next t ∧ (t.readV x).toNat = if (s.sc + 1) % 2 = 0 then s.dt.toNat - 1 else s.dt.toNat) ∧
  (∀ (s : State) (x : RegIx), executed s = some (.ldDtVx x) → ∃ t, step s = .next t ∧ t.dt = s.readV x) ∧
  (∀ (s t u : State) (x : RegIx) (h : Schedule), executed s = some (.ldDtVx x) → step s = .next t →
    h.quiet = true → NeverExecutes (fun i => ∃ y, i = .ldDtVx y) h t → hostedRun h t = .next u →
    u.dt.toNat = (s.readV x).toNat -
      min (s.readV x).toNat ((List.range h.length).countP fun m => (s.sc + 2 + m) % 2 == 0) ∧
    (u.dt = 0x00#8 ↔ (if (s.sc + 1) % 2 = 1 then 2 * (s.readV x).toNat - 1 else 2 * (s.readV x).toNat) ≤ h.length))

/-- R185: FX15 then FX07 in the next step reads the value written, or one less, by the parity of SC. -/
def Obligations.TimerReadBackDependsOnParity : Prop :=
  ∀ (s t u : State) (x y : RegIx), executed s = some (.ldDtVx x) → step s = .next t →
    executed t = some (.ldVxDt y) → step t = .next u →
    (u.readV y).toNat = if (s.sc + 1) % 2 = 1 then (s.readV x).toNat - 1 else (s.readV x).toNat

/-- R183, R184: FX0A and FX18 are defined words and silent no-operations; the step counts, ticks and passes them. -/
def Obligations.PlaceholdersChangeNothing : Prop :=
  ∀ (s : State) (x : RegIx),
    decodeWord (0xF#4 ++ (x ++ 0x0A#8)) = .ok (.ldVxK x) ∧ decodeWord (0xF#4 ++ (x ++ 0x18#8)) = .ok (.ldStVx x) ∧
    exec (.ldVxK x) s = .next s ∧ exec (.ldStVx x) s = .next s ∧
    (executed s = some (.ldVxK x) ∨ executed s = some (.ldStVx x) →
      step s = .next { s with
        sc := s.sc + 1
        dt := if (s.sc + 1) % 2 = 0 ∧ 0 < s.dt.toNat then s.dt - 1#8 else s.dt
        pc := s.pc + 2#16 })

/-! ## Conditions and the end of a run (60_exceptions, 70_reset) -/

/-- R193, R194, R195, R196, R198: exactly which step meets each of the seven conditions (StackOverflow: none, R195), and that a halting
step meets none. The names are the spec's decision D22. -/
def Obligations.ConditionsOfAStep : Prop :=
  ∀ s : State,
    (∀ p, Condition.fetchOverrun p ∈ raised s ↔ s.pc = 0x0FFF#16 ∧ p = s.pc) ∧
    (∀ op, Condition.reservedOpcode op ∈ raised s ↔
      s.pc.toNat < 0x1000 ∧ executed s = none ∧
        op = wordOfBytes (memRead s.mem s.pc.toNat) (memRead s.mem (s.pc.toNat + 1))) ∧
    (∀ a, Condition.stackUnderflow a ∈ raised s ↔ executed s = some .ret ∧ s.stack = [] ∧ a = s.pc) ∧
    (∀ a, Condition.stackOverflow a ∉ raised s) ∧
    (∀ a, Condition.memAddressOverflow a ∈ raised s ↔ 0x1000 ≤ a ∧ ∃ k, a = s.i.toNat + k ∧
      ((∃ x, executed s = some (.ldB x) ∧ k < 3) ∨ (∃ x, executed s = some (.stRegs x) ∧ k ≤ x.toNat) ∨
       (∃ x, executed s = some (.ldRegs x) ∧ k ≤ x.toNat) ∨ (∃ x y n, executed s = some (.drw x y n) ∧ k < n.toNat))) ∧
    (∀ b, Condition.keyIndexRange b ∈ raised s ↔
      15 < b.toNat ∧ ∃ x, (executed s = some (.skp x) ∨ executed s = some (.sknp x)) ∧ b = s.readV x) ∧
    (∀ c r, Condition.drawWrapRange c r ∈ raised s ↔ ∃ x y n i j, executed s = some (.drw x y n) ∧
      i < n.toNat ∧ j < 8 ∧ (memRead s.mem (s.i.toNat + i)).getLsbD (7 - j) = true ∧
      c = (s.readV x).toNat + j ∧ r = (s.readV y).toNat + i ∧ (128 ≤ c ∨ 64 ≤ r)) ∧
    (0x1000 ≤ s.pc.toNat → raised s = [])

/-- R237: a run of a started machine with a quiet host ends in exactly two ways: the clean halt, or RET found the stack empty (the
spec's decisions D5, D23; log 7). -/
def Obligations.RunsEndInTwoWays : Prop :=
  ∀ (h : Schedule) (s t : State), Started s → EndsAfter h s t →
    EndsClean h s t ∨ ∃ u, hostedRun h.dropLast s = .next u ∧ executed u = some .ret ∧ u.stack = []

/-- R225: with no image loaded, a started machine executes 1792 reserved words from PC below 0x1000, stands at PC = 0x1000 still
running, and the next step halts it (reserved words as no-operations are the spec's decision D10, log 6). -/
def Obligations.EmptyMachineRunsOffTheEnd : Prop :=
  (∀ m, m < 1792 → ∃ u, core.run m (launch []) = .next u ∧ executed u = none ∧ u.pc.toNat = 0x200 + 2 * m) ∧
  (∃ t, core.run 1792 (launch []) = .next t ∧ t.pc = 0x1000#16 ∧ t.running = true ∧ t.sc = Config.scReset + 1792) ∧
  (∃ t, core.run 1793 (launch []) = .next t ∧ t.pc = 0x1000#16 ∧ t.running = false ∧ t.sc = Config.scReset + 1793)
end

