-- ==== Sys2Proof/Laws/Decode.lean ====
section
/-! SUPPORT. The fields of an encoded word, format by format (30_encoding R81, R82), and the bytes of a word. -/

namespace Sys2Proof

/-- Concatenation as a number: the left part on the high side (R10). -/
theorem toNat_concat {m n : Nat} (a : BitVec m) (b : BitVec n) : (a ++ b).toNat = a.toNat * 2 ^ n + b.toNat := by
  rw [BitVec.toNat_append, ← Nat.shiftLeft_add_eq_or_of_lt b.isLt, Nat.shiftLeft_eq]

/-! ## Words as numbers -/

theorem encodeNNN_toNat (f : Nibble) (nnn : Addr12) : (encodeNNN f nnn).toNat = f.toNat * 4096 + nnn.toNat :=
  toNat_concat f nnn

theorem encodeXKK_toNat (f : Nibble) (x : RegIx) (kk : Byte) :
    (encodeXKK f x kk).toNat = f.toNat * 4096 + (x.toNat * 256 + kk.toNat) :=
  (toNat_concat f (x ++ kk)).trans (by rw [toNat_concat]; norm_num)

theorem encodeXYN_toNat (f : Nibble) (x y : RegIx) (n : Nibble) :
    (encodeXYN f x y n).toNat = f.toNat * 4096 + (x.toNat * 256 + (y.toNat * 16 + n.toNat)) :=
  (toNat_concat f (x ++ (y ++ n))).trans (by rw [toNat_concat, toNat_concat]; norm_num)

theorem wordOfBytes_toNat (hi lo : Byte) : (wordOfBytes hi lo).toNat = hi.toNat * 256 + lo.toNat := toNat_concat hi lo

/-! ## Fields as numbers -/

theorem familyOf_toNat (op : Opcode) : (familyOf op).toNat = op.toNat / 4096 % 16 := by
  simp [familyOf, BitVec.extractLsb'_toNat, Nat.shiftRight_eq_div_pow]

theorem xOf_toNat (op : Opcode) : (xOf op).toNat = op.toNat / 256 % 16 := by
  simp [xOf, BitVec.extractLsb'_toNat, Nat.shiftRight_eq_div_pow]

theorem yOf_toNat (op : Opcode) : (yOf op).toNat = op.toNat / 16 % 16 := by
  simp [yOf, BitVec.extractLsb'_toNat, Nat.shiftRight_eq_div_pow]

theorem nOf_toNat (op : Opcode) : (nOf op).toNat = op.toNat % 16 := by
  simp [nOf, BitVec.extractLsb'_toNat]

theorem kkOf_toNat (op : Opcode) : (kkOf op).toNat = op.toNat % 256 := by
  simp [kkOf, BitVec.extractLsb'_toNat]

theorem nnnOf_toNat (op : Opcode) : (nnnOf op).toNat = op.toNat % 4096 := by
  simp [nnnOf, BitVec.extractLsb'_toNat]

theorem hiByte_toNat (op : Opcode) : (hiByte op).toNat = op.toNat / 256 := by
  have := op.isLt
  simp only [hiByte, BitVec.extractLsb'_toNat, Nat.shiftRight_eq_div_pow]
  omega

theorem loByte_toNat (op : Opcode) : (loByte op).toNat = op.toNat % 256 := by
  simp [loByte, BitVec.extractLsb'_toNat]

/-! ## The fields of each format -/

theorem familyOf_encodeNNN (f : Nibble) (nnn : Addr12) : familyOf (encodeNNN f nnn) = f := by
  apply BitVec.eq_of_toNat_eq
  have := f.isLt
  have := nnn.isLt
  rw [familyOf_toNat, encodeNNN_toNat]
  omega

theorem nnnOf_encodeNNN (f : Nibble) (nnn : Addr12) : nnnOf (encodeNNN f nnn) = nnn := by
  apply BitVec.eq_of_toNat_eq
  have := nnn.isLt
  rw [nnnOf_toNat, encodeNNN_toNat]
  omega

theorem familyOf_encodeXKK (f : Nibble) (x : RegIx) (kk : Byte) : familyOf (encodeXKK f x kk) = f := by
  apply BitVec.eq_of_toNat_eq
  have := f.isLt
  have := x.isLt
  have := kk.isLt
  rw [familyOf_toNat, encodeXKK_toNat]
  omega

theorem xOf_encodeXKK (f : Nibble) (x : RegIx) (kk : Byte) : xOf (encodeXKK f x kk) = x := by
  apply BitVec.eq_of_toNat_eq
  have := x.isLt
  have := kk.isLt
  rw [xOf_toNat, encodeXKK_toNat]
  omega

theorem kkOf_encodeXKK (f : Nibble) (x : RegIx) (kk : Byte) : kkOf (encodeXKK f x kk) = kk := by
  apply BitVec.eq_of_toNat_eq
  have := kk.isLt
  rw [kkOf_toNat, encodeXKK_toNat]
  omega

theorem familyOf_encodeXYN (f : Nibble) (x y : RegIx) (n : Nibble) : familyOf (encodeXYN f x y n) = f := by
  apply BitVec.eq_of_toNat_eq
  have := f.isLt
  have := x.isLt
  have := y.isLt
  have := n.isLt
  rw [familyOf_toNat, encodeXYN_toNat]
  omega

theorem xOf_encodeXYN (f : Nibble) (x y : RegIx) (n : Nibble) : xOf (encodeXYN f x y n) = x := by
  apply BitVec.eq_of_toNat_eq
  have := x.isLt
  have := y.isLt
  have := n.isLt
  rw [xOf_toNat, encodeXYN_toNat]
  omega

theorem yOf_encodeXYN (f : Nibble) (x y : RegIx) (n : Nibble) : yOf (encodeXYN f x y n) = y := by
  apply BitVec.eq_of_toNat_eq
  have := y.isLt
  have := n.isLt
  rw [yOf_toNat, encodeXYN_toNat]
  omega

theorem nOf_encodeXYN (f : Nibble) (x y : RegIx) (n : Nibble) : nOf (encodeXYN f x y n) = n := by
  apply BitVec.eq_of_toNat_eq
  have := n.isLt
  rw [nOf_toNat, encodeXYN_toNat]
  omega

/-! ## The last family of the dispatch (R84) -/

/-- A word of family 0xF goes to that family's dispatch. -/
theorem decodeWord_familyF (op : Opcode) (h : familyOf op = 0xF#4) : decodeWord op = decodeFamilyF op := by
  simp [decodeWord, h]

/-- A family that is none of 0x0 to 0xE is 0xF. -/
theorem familyOf_eq_F (f : Nibble) (h : ∀ k, k < 15 → f.toNat ≠ k) : f = 0xF#4 := by
  apply BitVec.eq_of_toNat_eq
  have := f.isLt
  by_contra hne
  exact h f.toNat (by simp at hne; omega) rfl

/-! ## A word from its fields -/

theorem encodeNNN_of_fields (op : Opcode) : encodeNNN (familyOf op) (nnnOf op) = op := by
  apply BitVec.eq_of_toNat_eq
  have := op.isLt
  rw [encodeNNN_toNat, familyOf_toNat, nnnOf_toNat]
  omega

theorem encodeXKK_of_fields (op : Opcode) : encodeXKK (familyOf op) (xOf op) (kkOf op) = op := by
  apply BitVec.eq_of_toNat_eq
  have := op.isLt
  rw [encodeXKK_toNat, familyOf_toNat, xOf_toNat, kkOf_toNat]
  omega

theorem encodeXYN_of_fields (op : Opcode) : encodeXYN (familyOf op) (xOf op) (yOf op) (nOf op) = op := by
  apply BitVec.eq_of_toNat_eq
  have := op.isLt
  rw [encodeXYN_toNat, familyOf_toNat, xOf_toNat, yOf_toNat, nOf_toNat]
  omega

/-! ## Words and bytes (R52) -/

/-- The bytes of a word are the two it was made of (R52). -/
theorem hiByte_wordOfBytes (hi lo : Byte) : hiByte (wordOfBytes hi lo) = hi := by
  have h1 := hi.isLt
  have h2 := lo.isLt
  apply BitVec.eq_of_toNat_eq
  rw [hiByte_toNat, wordOfBytes_toNat]
  omega

theorem loByte_wordOfBytes (hi lo : Byte) : loByte (wordOfBytes hi lo) = lo := by
  have h2 := lo.isLt
  apply BitVec.eq_of_toNat_eq
  rw [loByte_toNat, wordOfBytes_toNat]
  omega

/-- Every word is its high byte before its low byte. -/
theorem wordOfBytes_hiByte_loByte (op : Opcode) : wordOfBytes (hiByte op) (loByte op) = op := by
  apply BitVec.eq_of_toNat_eq
  rw [wordOfBytes_toNat, hiByte_toNat, loByte_toNat]
  omega

/-- The decoder on bytes is the decoder on the word they hold. -/
theorem decodeBytes_of_word (op : Opcode) (rest : List Byte) :
    decodeBytes (hiByte op :: loByte op :: rest) = (decodeWord op).map (fun i => (i, rest)) := by
  simp only [decodeBytes, wordOfBytes_hiByte_loByte]
  cases decodeWord op <;> rfl

end Sys2Proof
end

