-- ==== Sys2Proof/Laws/Memory.lean ====
section
/-! SUPPORT. Memory: a read after a write, at every list; the canonical form is kept by every operation; two canonical memories that
read alike are equal. -/

namespace Sys2Proof.Machine

/-! ## Reads and writes -/

theorem memLookup_dropCell_same (m : Memory) (a : Nat) : memLookup (dropCell m a) a = memDefault a := by
  induction m with
  | nil => rfl
  | cons c rest ih =>
    by_cases h : c.1 = a
    · simpa [dropCell, h] using ih
    · have hne : ¬ a = c.1 := fun e => h e.symm
      simpa [dropCell, h, memLookup, hne] using ih

theorem memLookup_dropCell_ne (m : Memory) {a b : Nat} (h : b ≠ a) : memLookup (dropCell m a) b = memLookup m b := by
  induction m with
  | nil => rfl
  | cons c rest ih =>
    by_cases hc : c.1 = a
    · have hb : ¬ b = c.1 := fun e => h (e.trans hc)
      simpa [dropCell, hc, memLookup, h] using ih
    · by_cases hb : b = c.1
      · simp [dropCell, hc, memLookup, hb]
      · simpa [dropCell, hc, memLookup, hb] using ih

theorem memLookup_addCell_same (m : Memory) (a : Nat) (w : Byte) (h : ∀ c ∈ m, c.1 ≠ a) :
    memLookup (addCell m a w) a = w := by
  induction m with
  | nil => simp [addCell, memLookup]
  | cons c rest ih =>
    have hc : ¬ a = c.1 := fun e => h c (by simp) e.symm
    by_cases hlt : a < c.1
    · simp [addCell, hlt, memLookup]
    · simpa [addCell, hlt, memLookup, hc] using ih (fun d hd => h d (by simp [hd]))

theorem memLookup_addCell_ne (m : Memory) {a b : Nat} (w : Byte) (h : b ≠ a) :
    memLookup (addCell m a w) b = memLookup m b := by
  induction m with
  | nil => simp [addCell, memLookup, h]
  | cons c rest ih =>
    by_cases hlt : a < c.1
    · simp [addCell, hlt, memLookup, h]
    · simp only [addCell, hlt, if_false, memLookup, ih]

theorem dropCell_ne (m : Memory) (a : Nat) : ∀ c ∈ dropCell m a, c.1 ≠ a := by
  intro c hc
  simpa using (List.mem_filter.mp hc).2

theorem memLookup_memInsert_same (m : Memory) (a : Nat) (w : Byte) : memLookup (memInsert m a w) a = w := by
  unfold memInsert
  split
  · next h => rw [memLookup_dropCell_same, h]
  · exact memLookup_addCell_same _ _ _ (dropCell_ne m a)

theorem memLookup_memInsert_ne (m : Memory) {a b : Nat} (w : Byte) (h : b ≠ a) :
    memLookup (memInsert m a w) b = memLookup m b := by
  unfold memInsert
  split
  · exact memLookup_dropCell_ne m h
  · rw [memLookup_addCell_ne _ _ h, memLookup_dropCell_ne m h]

/-- A read of the byte just written, under any address that names it modulo 4096. -/
theorem memRead_memWrite_same (m : Memory) {a b : Nat} (w : Byte) (h : b % memSize = a % memSize) :
    memRead (memWrite m a w) b = w := by
  unfold memRead memWrite
  rw [h, memLookup_memInsert_same]

/-- A write leaves every other byte alone. -/
theorem memRead_memWrite_ne (m : Memory) {a b : Nat} (w : Byte) (h : b % memSize ≠ a % memSize) :
    memRead (memWrite m a w) b = memRead m b := memLookup_memInsert_ne m w h

theorem memRead_memWrite (m : Memory) (a b : Nat) (w : Byte) :
    memRead (memWrite m a w) b = if b % memSize = a % memSize then w else memRead m b := by
  split
  · next h => exact memRead_memWrite_same m w h
  · next h => exact memRead_memWrite_ne m w h

/-- An address matters only modulo 4096 (R56). -/
theorem memRead_mod (m : Memory) (a : Nat) : memRead m (a % memSize) = memRead m a := by
  unfold memRead
  rw [Nat.mod_mod]

/-! ## Consecutive writes -/

/-- A byte outside the written run is unchanged. -/
theorem memRead_memWriteList_ne (m : Memory) (a b : Nat) (ws : List Byte)
    (h : ∀ k, k < ws.length → b % memSize ≠ (a + k) % memSize) : memRead (memWriteList m a ws) b = memRead m b := by
  induction ws generalizing m a with
  | nil => rfl
  | cons w ws ih =>
    rw [memWriteList, ih _ _ fun k hk => by simpa [Nat.add_assoc, Nat.add_comm 1 k] using h (k + 1) (by simpa using hk)]
    exact memRead_memWrite_ne m w (by simpa using h 0 (by simp))

/-- The k-th byte of a run of at most 4096 bytes. -/
theorem memRead_memWriteList_at (m : Memory) (a : Nat) (ws : List Byte) (k : Nat) (hk : k < ws.length)
    (hlen : ws.length ≤ memSize) : memRead (memWriteList m a ws) (a + k) = ws[k] := by
  induction ws generalizing m a k with
  | nil => simp at hk
  | cons w ws ih =>
    cases k with
    | zero =>
      rw [memWriteList, memRead_memWriteList_ne]
      · exact memRead_memWrite_same m w rfl
      · intro j hj
        simp only [List.length_cons, memSize] at hlen ⊢
        omega
    | succ k =>
      have := ih (memWrite m a w) (a + 1) k (by simpa using hk) (by simp at hlen; omega)
      rw [memWriteList, List.getElem_cons_succ, ← this]
      congr 1
      omega

/-! ## The canonical form -/

theorem wfFrom_mono {m : Memory} {lo hi : Nat} (h : lo ≤ hi) (hm : Memory.wfFrom hi m = true) :
    Memory.wfFrom lo m = true := by
  cases m with
  | nil => rfl
  | cons c rest =>
    simp only [Memory.wfFrom, Bool.and_eq_true, decide_eq_true_eq] at hm ⊢
    exact ⟨⟨by omega, hm.1.2⟩, hm.2⟩

theorem wfFrom_dropCell {m : Memory} {lo : Nat} (a : Nat) (hm : Memory.wfFrom lo m = true) :
    Memory.wfFrom lo (dropCell m a) = true := by
  induction m generalizing lo with
  | nil => rfl
  | cons c rest ih =>
    simp only [Memory.wfFrom, Bool.and_eq_true, decide_eq_true_eq] at hm
    by_cases h : c.1 = a
    · have := wfFrom_mono (show lo ≤ c.1 + 1 by omega) (ih hm.2)
      simpa [dropCell, h] using this
    · have := ih hm.2
      simp only [dropCell] at this
      simp only [dropCell, List.filter_cons, bne_iff_ne, ne_eq, h, not_false_eq_true, if_true, Memory.wfFrom,
        Bool.and_eq_true, decide_eq_true_eq]
      exact ⟨hm.1, this⟩

theorem wfFrom_addCell {m : Memory} {lo a : Nat} {w : Byte} (hm : Memory.wfFrom lo m = true) (hlo : lo ≤ a)
    (ha : a < memSize) (hw : w ≠ memDefault a) (hne : ∀ c ∈ m, c.1 ≠ a) : Memory.wfFrom lo (addCell m a w) = true := by
  induction m generalizing lo with
  | nil => simp [addCell, Memory.wfFrom, hlo, ha, hw]
  | cons c rest ih =>
    simp only [Memory.wfFrom, Bool.and_eq_true, decide_eq_true_eq] at hm
    by_cases hlt : a < c.1
    · simp only [addCell, hlt, if_true, Memory.wfFrom, Bool.and_eq_true, decide_eq_true_eq]
      exact ⟨⟨hlo, ha, hw⟩, ⟨hlt, hm.1.2⟩, hm.2⟩
    · have hc : c.1 ≠ a := hne c (by simp)
      simp only [addCell, hlt, if_false, Memory.wfFrom, Bool.and_eq_true, decide_eq_true_eq]
      exact ⟨hm.1, ih hm.2 (by omega) (fun d hd => hne d (by simp [hd]))⟩

theorem memWrite_wf {m : Memory} (hm : m.wf = true) (a : Nat) (w : Byte) : (memWrite m a w).wf = true := by
  have ha : a % memSize < memSize := Nat.mod_lt _ (by decide)
  unfold memWrite memInsert
  split
  · exact wfFrom_dropCell _ hm
  · next hw => exact wfFrom_addCell (wfFrom_dropCell _ hm) (Nat.zero_le _) ha hw (dropCell_ne m _)

theorem memWriteList_wf {m : Memory} (hm : m.wf = true) (a : Nat) (ws : List Byte) : (memWriteList m a ws).wf = true := by
  induction ws generalizing m a with
  | nil => exact hm
  | cons w ws ih => exact ih (memWrite_wf hm a w) (a + 1)

theorem reset_mem_wf : State.reset.mem.wf = true := rfl

/-! ## Equal contents are equal lists -/

theorem memLookup_of_lt {m : Memory} {lo a : Nat} (hm : Memory.wfFrom lo m = true) (h : a < lo) :
    memLookup m a = memDefault a := by
  induction m generalizing lo with
  | nil => rfl
  | cons c rest ih =>
    simp only [Memory.wfFrom, Bool.and_eq_true, decide_eq_true_eq] at hm
    have hne : ¬ a = c.1 := by omega
    simp only [memLookup, hne, if_false]
    exact ih hm.2 (by omega)

theorem wfFrom_ext {m n : Memory} {lo : Nat} (hm : Memory.wfFrom lo m = true) (hn : Memory.wfFrom lo n = true)
    (h : ∀ a, a < memSize → memLookup m a = memLookup n a) : m = n := by
  induction m generalizing n lo with
  | nil =>
    cases n with
    | nil => rfl
    | cons d ns =>
      simp only [Memory.wfFrom, Bool.and_eq_true, decide_eq_true_eq] at hn
      have := h d.1 hn.1.2.1
      simp only [memLookup, if_true] at this
      exact absurd this.symm hn.1.2.2
  | cons c ms ih =>
    simp only [Memory.wfFrom, Bool.and_eq_true, decide_eq_true_eq] at hm
    cases n with
    | nil =>
      have := h c.1 hm.1.2.1
      simp only [memLookup, if_true] at this
      exact absurd this hm.1.2.2
    | cons d ns =>
      simp only [Memory.wfFrom, Bool.and_eq_true, decide_eq_true_eq] at hn
      have hcd : c.1 = d.1 := by
        rcases Nat.lt_trichotomy c.1 d.1 with hlt | heq | hgt
        · have h1 := h c.1 hm.1.2.1
          have hne : ¬ c.1 = d.1 := by omega
          simp only [memLookup, if_true, hne, if_false] at h1
          rw [memLookup_of_lt hn.2 (by omega)] at h1
          exact absurd h1 hm.1.2.2
        · exact heq
        · have h1 := h d.1 hn.1.2.1
          have hne : ¬ d.1 = c.1 := by omega
          simp only [memLookup, if_true, hne, if_false] at h1
          rw [memLookup_of_lt hm.2 (by omega)] at h1
          exact absurd h1.symm hn.1.2.2
      have hw : c.2 = d.2 := by
        have h1 := h c.1 hm.1.2.1
        simpa [memLookup, hcd] using h1
      have hrest : ms = ns := by
        refine ih hm.2 (hcd ▸ hn.2) fun a ha => ?_
        by_cases hac : a = c.1
        · rw [hac, memLookup_of_lt hm.2 (by omega), hcd, memLookup_of_lt hn.2 (by omega)]
        · have h1 := h a ha
          have had : ¬ a = d.1 := by omega
          simpa only [memLookup, hac, had, if_false] using h1
      rw [show c = d from Prod.ext hcd hw, hrest]

/-- Two canonical memories that read alike at every address are the same list. -/
theorem memory_ext {m n : Memory} (hm : m.wf = true) (hn : n.wf = true) (h : ∀ a, a < memSize → memRead m a = memRead n a) :
    m = n :=
  wfFrom_ext hm hn fun a ha => by
    have := h a ha
    unfold memRead at this
    rwa [Nat.mod_eq_of_lt ha] at this

end Sys2Proof.Machine
end

