-- ==== Sys2Proof/Laws/State.lean ====
section
/-! SUPPORT. One lemma per field of State per named update, each true by rfl (or by the two cases of a skip), so that no later
proof unfolds a record update. -/

namespace Sys2Proof.Machine

variable (s : State)

/-! ## State.writeV -/

@[simp] theorem State.writeV_mem (x : RegIx) (b : Byte) : (s.writeV x b).mem = s.mem := rfl
@[simp] theorem State.writeV_v (x : RegIx) (b : Byte) : (s.writeV x b).v = s.v.set x.toNat b x.isLt := rfl
@[simp] theorem State.writeV_i (x : RegIx) (b : Byte) : (s.writeV x b).i = s.i := rfl
@[simp] theorem State.writeV_pc (x : RegIx) (b : Byte) : (s.writeV x b).pc = s.pc := rfl
@[simp] theorem State.writeV_stack (x : RegIx) (b : Byte) : (s.writeV x b).stack = s.stack := rfl
@[simp] theorem State.writeV_dt (x : RegIx) (b : Byte) : (s.writeV x b).dt = s.dt := rfl
@[simp] theorem State.writeV_keys (x : RegIx) (b : Byte) : (s.writeV x b).keys = s.keys := rfl
@[simp] theorem State.writeV_fb (x : RegIx) (b : Byte) : (s.writeV x b).fb = s.fb := rfl
@[simp] theorem State.writeV_draw (x : RegIx) (b : Byte) : (s.writeV x b).draw = s.draw := rfl
@[simp] theorem State.writeV_running (x : RegIx) (b : Byte) : (s.writeV x b).running = s.running := rfl
@[simp] theorem State.writeV_sc (x : RegIx) (b : Byte) : (s.writeV x b).sc = s.sc := rfl
@[simp] theorem State.writeV_rndIndex (x : RegIx) (b : Byte) : (s.writeV x b).rndIndex = s.rndIndex := rfl

/-! ## State.setFlag -/

@[simp] theorem State.setFlag_mem (c : Bool) : (s.setFlag c).mem = s.mem := rfl
@[simp] theorem State.setFlag_v (c : Bool) : (s.setFlag c).v = s.v.set vf.toNat (flagByte c) vf.isLt := rfl
@[simp] theorem State.setFlag_i (c : Bool) : (s.setFlag c).i = s.i := rfl
@[simp] theorem State.setFlag_pc (c : Bool) : (s.setFlag c).pc = s.pc := rfl
@[simp] theorem State.setFlag_stack (c : Bool) : (s.setFlag c).stack = s.stack := rfl
@[simp] theorem State.setFlag_dt (c : Bool) : (s.setFlag c).dt = s.dt := rfl
@[simp] theorem State.setFlag_keys (c : Bool) : (s.setFlag c).keys = s.keys := rfl
@[simp] theorem State.setFlag_fb (c : Bool) : (s.setFlag c).fb = s.fb := rfl
@[simp] theorem State.setFlag_draw (c : Bool) : (s.setFlag c).draw = s.draw := rfl
@[simp] theorem State.setFlag_running (c : Bool) : (s.setFlag c).running = s.running := rfl
@[simp] theorem State.setFlag_sc (c : Bool) : (s.setFlag c).sc = s.sc := rfl
@[simp] theorem State.setFlag_rndIndex (c : Bool) : (s.setFlag c).rndIndex = s.rndIndex := rfl

/-! ## State.setStack -/

@[simp] theorem State.setStack_mem (l : List Addr) : (s.setStack l).mem = s.mem := rfl
@[simp] theorem State.setStack_v (l : List Addr) : (s.setStack l).v = s.v := rfl
@[simp] theorem State.setStack_i (l : List Addr) : (s.setStack l).i = s.i := rfl
@[simp] theorem State.setStack_pc (l : List Addr) : (s.setStack l).pc = s.pc := rfl
@[simp] theorem State.setStack_stack (l : List Addr) : (s.setStack l).stack = l := rfl
@[simp] theorem State.setStack_dt (l : List Addr) : (s.setStack l).dt = s.dt := rfl
@[simp] theorem State.setStack_keys (l : List Addr) : (s.setStack l).keys = s.keys := rfl
@[simp] theorem State.setStack_fb (l : List Addr) : (s.setStack l).fb = s.fb := rfl
@[simp] theorem State.setStack_draw (l : List Addr) : (s.setStack l).draw = s.draw := rfl
@[simp] theorem State.setStack_running (l : List Addr) : (s.setStack l).running = s.running := rfl
@[simp] theorem State.setStack_sc (l : List Addr) : (s.setStack l).sc = s.sc := rfl
@[simp] theorem State.setStack_rndIndex (l : List Addr) : (s.setStack l).rndIndex = s.rndIndex := rfl
@[simp] theorem State.setStack_readV (l : List Addr) (r : RegIx) : (s.setStack l).readV r = s.readV r := rfl

/-! ## State.push -/

@[simp] theorem State.push_mem (a : Addr) : (s.push a).mem = s.mem := rfl
@[simp] theorem State.push_v (a : Addr) : (s.push a).v = s.v := rfl
@[simp] theorem State.push_i (a : Addr) : (s.push a).i = s.i := rfl
@[simp] theorem State.push_pc (a : Addr) : (s.push a).pc = s.pc := rfl
@[simp] theorem State.push_stack (a : Addr) : (s.push a).stack = s.stack ++ [a] := rfl
@[simp] theorem State.push_dt (a : Addr) : (s.push a).dt = s.dt := rfl
@[simp] theorem State.push_keys (a : Addr) : (s.push a).keys = s.keys := rfl
@[simp] theorem State.push_fb (a : Addr) : (s.push a).fb = s.fb := rfl
@[simp] theorem State.push_draw (a : Addr) : (s.push a).draw = s.draw := rfl
@[simp] theorem State.push_running (a : Addr) : (s.push a).running = s.running := rfl
@[simp] theorem State.push_sc (a : Addr) : (s.push a).sc = s.sc := rfl
@[simp] theorem State.push_rndIndex (a : Addr) : (s.push a).rndIndex = s.rndIndex := rfl
@[simp] theorem State.push_readV (a : Addr) (r : RegIx) : (s.push a).readV r = s.readV r := rfl

/-! ## State.showFrame -/

@[simp] theorem State.showFrame_mem (f : Framebuffer) : (s.showFrame f).mem = s.mem := rfl
@[simp] theorem State.showFrame_v (f : Framebuffer) : (s.showFrame f).v = s.v := rfl
@[simp] theorem State.showFrame_i (f : Framebuffer) : (s.showFrame f).i = s.i := rfl
@[simp] theorem State.showFrame_pc (f : Framebuffer) : (s.showFrame f).pc = s.pc := rfl
@[simp] theorem State.showFrame_stack (f : Framebuffer) : (s.showFrame f).stack = s.stack := rfl
@[simp] theorem State.showFrame_dt (f : Framebuffer) : (s.showFrame f).dt = s.dt := rfl
@[simp] theorem State.showFrame_keys (f : Framebuffer) : (s.showFrame f).keys = s.keys := rfl
@[simp] theorem State.showFrame_fb (f : Framebuffer) : (s.showFrame f).fb = f := rfl
@[simp] theorem State.showFrame_draw (f : Framebuffer) : (s.showFrame f).draw = true := rfl
@[simp] theorem State.showFrame_running (f : Framebuffer) : (s.showFrame f).running = s.running := rfl
@[simp] theorem State.showFrame_sc (f : Framebuffer) : (s.showFrame f).sc = s.sc := rfl
@[simp] theorem State.showFrame_rndIndex (f : Framebuffer) : (s.showFrame f).rndIndex = s.rndIndex := rfl
@[simp] theorem State.showFrame_readV (f : Framebuffer) (r : RegIx) : (s.showFrame f).readV r = s.readV r := rfl

/-! ## State.setMem -/

@[simp] theorem State.setMem_mem (m : Memory) : (s.setMem m).mem = m := rfl
@[simp] theorem State.setMem_v (m : Memory) : (s.setMem m).v = s.v := rfl
@[simp] theorem State.setMem_i (m : Memory) : (s.setMem m).i = s.i := rfl
@[simp] theorem State.setMem_pc (m : Memory) : (s.setMem m).pc = s.pc := rfl
@[simp] theorem State.setMem_stack (m : Memory) : (s.setMem m).stack = s.stack := rfl
@[simp] theorem State.setMem_dt (m : Memory) : (s.setMem m).dt = s.dt := rfl
@[simp] theorem State.setMem_keys (m : Memory) : (s.setMem m).keys = s.keys := rfl
@[simp] theorem State.setMem_fb (m : Memory) : (s.setMem m).fb = s.fb := rfl
@[simp] theorem State.setMem_draw (m : Memory) : (s.setMem m).draw = s.draw := rfl
@[simp] theorem State.setMem_running (m : Memory) : (s.setMem m).running = s.running := rfl
@[simp] theorem State.setMem_sc (m : Memory) : (s.setMem m).sc = s.sc := rfl
@[simp] theorem State.setMem_rndIndex (m : Memory) : (s.setMem m).rndIndex = s.rndIndex := rfl
@[simp] theorem State.setMem_readV (m : Memory) (r : RegIx) : (s.setMem m).readV r = s.readV r := rfl

/-! ## State.setI -/

@[simp] theorem State.setI_mem (a : Addr) : (s.setI a).mem = s.mem := rfl
@[simp] theorem State.setI_v (a : Addr) : (s.setI a).v = s.v := rfl
@[simp] theorem State.setI_i (a : Addr) : (s.setI a).i = a := rfl
@[simp] theorem State.setI_pc (a : Addr) : (s.setI a).pc = s.pc := rfl
@[simp] theorem State.setI_stack (a : Addr) : (s.setI a).stack = s.stack := rfl
@[simp] theorem State.setI_dt (a : Addr) : (s.setI a).dt = s.dt := rfl
@[simp] theorem State.setI_keys (a : Addr) : (s.setI a).keys = s.keys := rfl
@[simp] theorem State.setI_fb (a : Addr) : (s.setI a).fb = s.fb := rfl
@[simp] theorem State.setI_draw (a : Addr) : (s.setI a).draw = s.draw := rfl
@[simp] theorem State.setI_running (a : Addr) : (s.setI a).running = s.running := rfl
@[simp] theorem State.setI_sc (a : Addr) : (s.setI a).sc = s.sc := rfl
@[simp] theorem State.setI_rndIndex (a : Addr) : (s.setI a).rndIndex = s.rndIndex := rfl
@[simp] theorem State.setI_readV (a : Addr) (r : RegIx) : (s.setI a).readV r = s.readV r := rfl

/-! ## State.setDt -/

@[simp] theorem State.setDt_mem (b : Byte) : (s.setDt b).mem = s.mem := rfl
@[simp] theorem State.setDt_v (b : Byte) : (s.setDt b).v = s.v := rfl
@[simp] theorem State.setDt_i (b : Byte) : (s.setDt b).i = s.i := rfl
@[simp] theorem State.setDt_pc (b : Byte) : (s.setDt b).pc = s.pc := rfl
@[simp] theorem State.setDt_stack (b : Byte) : (s.setDt b).stack = s.stack := rfl
@[simp] theorem State.setDt_dt (b : Byte) : (s.setDt b).dt = b := rfl
@[simp] theorem State.setDt_keys (b : Byte) : (s.setDt b).keys = s.keys := rfl
@[simp] theorem State.setDt_fb (b : Byte) : (s.setDt b).fb = s.fb := rfl
@[simp] theorem State.setDt_draw (b : Byte) : (s.setDt b).draw = s.draw := rfl
@[simp] theorem State.setDt_running (b : Byte) : (s.setDt b).running = s.running := rfl
@[simp] theorem State.setDt_sc (b : Byte) : (s.setDt b).sc = s.sc := rfl
@[simp] theorem State.setDt_rndIndex (b : Byte) : (s.setDt b).rndIndex = s.rndIndex := rfl
@[simp] theorem State.setDt_readV (b : Byte) (r : RegIx) : (s.setDt b).readV r = s.readV r := rfl

/-! ## State.jump -/

@[simp] theorem State.jump_mem (a : Addr) : (s.jump a).mem = s.mem := rfl
@[simp] theorem State.jump_v (a : Addr) : (s.jump a).v = s.v := rfl
@[simp] theorem State.jump_i (a : Addr) : (s.jump a).i = s.i := rfl
@[simp] theorem State.jump_pc (a : Addr) : (s.jump a).pc = a := rfl
@[simp] theorem State.jump_stack (a : Addr) : (s.jump a).stack = s.stack := rfl
@[simp] theorem State.jump_dt (a : Addr) : (s.jump a).dt = s.dt := rfl
@[simp] theorem State.jump_keys (a : Addr) : (s.jump a).keys = s.keys := rfl
@[simp] theorem State.jump_fb (a : Addr) : (s.jump a).fb = s.fb := rfl
@[simp] theorem State.jump_draw (a : Addr) : (s.jump a).draw = s.draw := rfl
@[simp] theorem State.jump_running (a : Addr) : (s.jump a).running = s.running := rfl
@[simp] theorem State.jump_sc (a : Addr) : (s.jump a).sc = s.sc := rfl
@[simp] theorem State.jump_rndIndex (a : Addr) : (s.jump a).rndIndex = s.rndIndex := rfl
@[simp] theorem State.jump_readV (a : Addr) (r : RegIx) : (s.jump a).readV r = s.readV r := rfl

/-! ## State.halt -/

@[simp] theorem State.halt_mem : (s.halt).mem = s.mem := rfl
@[simp] theorem State.halt_v : (s.halt).v = s.v := rfl
@[simp] theorem State.halt_i : (s.halt).i = s.i := rfl
@[simp] theorem State.halt_pc : (s.halt).pc = s.pc := rfl
@[simp] theorem State.halt_stack : (s.halt).stack = s.stack := rfl
@[simp] theorem State.halt_dt : (s.halt).dt = s.dt := rfl
@[simp] theorem State.halt_keys : (s.halt).keys = s.keys := rfl
@[simp] theorem State.halt_fb : (s.halt).fb = s.fb := rfl
@[simp] theorem State.halt_draw : (s.halt).draw = s.draw := rfl
@[simp] theorem State.halt_running : (s.halt).running = false := rfl
@[simp] theorem State.halt_sc : (s.halt).sc = s.sc := rfl
@[simp] theorem State.halt_rndIndex : (s.halt).rndIndex = s.rndIndex := rfl
@[simp] theorem State.halt_readV (r : RegIx) : (s.halt).readV r = s.readV r := rfl

/-! ## State.rndTaken -/

@[simp] theorem State.rndTaken_mem : (s.rndTaken).mem = s.mem := rfl
@[simp] theorem State.rndTaken_v : (s.rndTaken).v = s.v := rfl
@[simp] theorem State.rndTaken_i : (s.rndTaken).i = s.i := rfl
@[simp] theorem State.rndTaken_pc : (s.rndTaken).pc = s.pc := rfl
@[simp] theorem State.rndTaken_stack : (s.rndTaken).stack = s.stack := rfl
@[simp] theorem State.rndTaken_dt : (s.rndTaken).dt = s.dt := rfl
@[simp] theorem State.rndTaken_keys : (s.rndTaken).keys = s.keys := rfl
@[simp] theorem State.rndTaken_fb : (s.rndTaken).fb = s.fb := rfl
@[simp] theorem State.rndTaken_draw : (s.rndTaken).draw = s.draw := rfl
@[simp] theorem State.rndTaken_running : (s.rndTaken).running = s.running := rfl
@[simp] theorem State.rndTaken_sc : (s.rndTaken).sc = s.sc := rfl
@[simp] theorem State.rndTaken_rndIndex : (s.rndTaken).rndIndex = s.rndIndex + 1 := rfl
@[simp] theorem State.rndTaken_readV (r : RegIx) : (s.rndTaken).readV r = s.readV r := rfl

/-! ## State.skipIf -/

@[simp] theorem State.skipIf_mem (c : Bool) : (s.skipIf c).mem = s.mem := by cases c <;> rfl
@[simp] theorem State.skipIf_v (c : Bool) : (s.skipIf c).v = s.v := by cases c <;> rfl
@[simp] theorem State.skipIf_i (c : Bool) : (s.skipIf c).i = s.i := by cases c <;> rfl
@[simp] theorem State.skipIf_pc (c : Bool) : (s.skipIf c).pc = if c then s.pc + 2#16 else s.pc := by cases c <;> rfl
@[simp] theorem State.skipIf_stack (c : Bool) : (s.skipIf c).stack = s.stack := by cases c <;> rfl
@[simp] theorem State.skipIf_dt (c : Bool) : (s.skipIf c).dt = s.dt := by cases c <;> rfl
@[simp] theorem State.skipIf_keys (c : Bool) : (s.skipIf c).keys = s.keys := by cases c <;> rfl
@[simp] theorem State.skipIf_fb (c : Bool) : (s.skipIf c).fb = s.fb := by cases c <;> rfl
@[simp] theorem State.skipIf_draw (c : Bool) : (s.skipIf c).draw = s.draw := by cases c <;> rfl
@[simp] theorem State.skipIf_running (c : Bool) : (s.skipIf c).running = s.running := by cases c <;> rfl
@[simp] theorem State.skipIf_sc (c : Bool) : (s.skipIf c).sc = s.sc := by cases c <;> rfl
@[simp] theorem State.skipIf_rndIndex (c : Bool) : (s.skipIf c).rndIndex = s.rndIndex := by cases c <;> rfl
@[simp] theorem State.skipIf_readV (c : Bool) (r : RegIx) : (s.skipIf c).readV r = s.readV r := by cases c <;> rfl

/-! ## tick -/

@[simp] theorem tick_mem : (tick s).mem = s.mem := rfl
@[simp] theorem tick_v : (tick s).v = s.v := rfl
@[simp] theorem tick_i : (tick s).i = s.i := rfl
@[simp] theorem tick_pc : (tick s).pc = s.pc := rfl
@[simp] theorem tick_stack : (tick s).stack = s.stack := rfl
@[simp] theorem tick_dt : (tick s).dt = if (s.sc + 1) % 2 = 0 ∧ 0 < s.dt.toNat then s.dt - 1#8 else s.dt := rfl
@[simp] theorem tick_keys : (tick s).keys = s.keys := rfl
@[simp] theorem tick_fb : (tick s).fb = s.fb := rfl
@[simp] theorem tick_draw : (tick s).draw = s.draw := rfl
@[simp] theorem tick_running : (tick s).running = s.running := rfl
@[simp] theorem tick_sc : (tick s).sc = s.sc + 1 := rfl
@[simp] theorem tick_rndIndex : (tick s).rndIndex = s.rndIndex := rfl
@[simp] theorem tick_readV (r : RegIx) : (tick s).readV r = s.readV r := rfl

/-! ## preAdvance -/

@[simp] theorem preAdvance_mem : (preAdvance s).mem = s.mem := rfl
@[simp] theorem preAdvance_v : (preAdvance s).v = s.v := rfl
@[simp] theorem preAdvance_i : (preAdvance s).i = s.i := rfl
@[simp] theorem preAdvance_pc : (preAdvance s).pc = s.pc + 2#16 := rfl
@[simp] theorem preAdvance_stack : (preAdvance s).stack = s.stack := rfl
@[simp] theorem preAdvance_dt : (preAdvance s).dt = s.dt := rfl
@[simp] theorem preAdvance_keys : (preAdvance s).keys = s.keys := rfl
@[simp] theorem preAdvance_fb : (preAdvance s).fb = s.fb := rfl
@[simp] theorem preAdvance_draw : (preAdvance s).draw = s.draw := rfl
@[simp] theorem preAdvance_running : (preAdvance s).running = s.running := rfl
@[simp] theorem preAdvance_sc : (preAdvance s).sc = s.sc := rfl
@[simp] theorem preAdvance_rndIndex : (preAdvance s).rndIndex = s.rndIndex := rfl
@[simp] theorem preAdvance_readV (r : RegIx) : (preAdvance s).readV r = s.readV r := rfl

end Sys2Proof.Machine
end

