-- ==== Sys2Proof/Laws/Operations.lean ====
section
/-! SUPPORT. One lemma per shared operation over registers, flags, pixels and operands: everything the operation can do. -/

namespace Sys2Proof.Machine

/-! ## Registers -/

/-- A register after a register write. -/
theorem State.readV_writeV (s : State) (x r : RegIx) (b : Byte) :
    (s.writeV x b).readV r = if r = x then b else s.readV r := by
  unfold State.readV State.writeV
  simp only [Vector.getElem_set]
  by_cases h : r = x
  · simp [h]
  · have : ¬ x.toNat = r.toNat := fun e => h (BitVec.eq_of_toNat_eq e.symm)
    simp [h, this]

@[simp] theorem State.readV_writeV_same (s : State) (x : RegIx) (b : Byte) : (s.writeV x b).readV x = b := by
  simp [State.readV_writeV]

theorem State.readV_writeV_ne (s : State) {x r : RegIx} (b : Byte) (h : r ≠ x) : (s.writeV x b).readV r = s.readV r := by
  simp [State.readV_writeV, h]

/-- A register after a flag write: only VF changes, to 0x00 or 0x01 (R22). -/
theorem State.readV_setFlag (s : State) (c : Bool) (r : RegIx) :
    (s.setFlag c).readV r = if r = vf then flagByte c else s.readV r := State.readV_writeV s vf r (flagByte c)

@[simp] theorem State.readV_setFlag_same (s : State) (c : Bool) : (s.setFlag c).readV vf = flagByte c := by
  simp [State.readV_setFlag]

theorem State.readV_setFlag_ne (s : State) (c : Bool) {r : RegIx} (h : r ≠ vf) : (s.setFlag c).readV r = s.readV r := by
  simp [State.readV_setFlag, h]

/-- Two register files that read alike are equal. -/
theorem State.v_ext {s t : State} (h : ∀ r, s.readV r = t.readV r) : s.v = t.v := by
  apply Vector.ext
  intro k hk
  have := h (BitVec.ofNat 4 k)
  unfold State.readV at this
  simpa [Nat.mod_eq_of_lt hk] using this

/-! ## Stack -/

/-- The normative stack is never full (R195). -/
@[simp] theorem State.stackFull_eq_false (s : State) : s.stackFull = false := rfl

/-! ## Control -/

/-- A skip writes PC and nothing else, whatever the condition (R130). -/
theorem State.skipIf_eq (s : State) (c : Bool) : s.skipIf c = { s with pc := if c then s.pc + 2#16 else s.pc } := by
  cases c <;> rfl

/-! ## Operands -/

theorem zextNNN_toNat (nnn : Addr12) : (zextNNN nnn).toNat = nnn.toNat := by
  have := nnn.isLt
  simp only [zextNNN, BitVec.toNat_setWidth]
  omega

theorem zextByte_toNat (b : Byte) : (zextByte b).toNat = b.toNat := by
  have := b.isLt
  simp only [zextByte, BitVec.toNat_setWidth]
  omega

theorem flagByte_toNat (c : Bool) : (flagByte c).toNat = if c then 1 else 0 := by cases c <;> rfl

theorem State.regsUpTo_length (s : State) (x : RegIx) : (s.regsUpTo x).length = x.toNat + 1 := by
  simp [State.regsUpTo]

theorem State.regsUpTo_getElem (s : State) (x : RegIx) (k : Nat) (hk : k < (s.regsUpTo x).length) :
    (s.regsUpTo x)[k] = s.readV (BitVec.ofNat 4 k) := by
  simp [State.regsUpTo]

/-- What the loop of FX65 leaves: registers below the count loaded, the others and everything else unchanged. -/
theorem State.foldl_loadReg (s : State) (n : Nat) (hn : n ≤ 16) :
    (∀ r : RegIx, ((List.range n).foldl State.loadReg s).readV r =
      if r.toNat < n then memRead s.mem (s.dataAddr r.toNat) else s.readV r) ∧
    (List.range n).foldl State.loadReg s = { s with v := ((List.range n).foldl State.loadReg s).v } := by
  induction n with
  | zero => exact ⟨fun r => by simp, rfl⟩
  | succ n ih =>
    obtain ⟨hr, hs⟩ := ih (by omega)
    set t := (List.range n).foldl State.loadReg s with ht
    have hmem : t.mem = s.mem := by rw [hs]
    have hi : t.i = s.i := by rw [hs]
    rw [List.range_succ, List.foldl_append, ← ht]
    refine ⟨fun r => ?_, ?_⟩
    · simp only [List.foldl_cons, List.foldl_nil, State.loadReg, State.readV_writeV, hr, hmem, State.dataAddr, hi]
      have hrn : r = BitVec.ofNat 4 n ↔ r.toNat = n := by
        constructor
        · rintro rfl
          simp only [BitVec.toNat_ofNat]
          omega
        · intro h
          apply BitVec.eq_of_toNat_eq
          simp only [BitVec.toNat_ofNat]
          omega
      by_cases h : r.toNat = n
      · simp [hrn.mpr h, Nat.mod_eq_of_lt (show n < 16 by omega)]
      · have h2 : (r.toNat < n + 1) = (r.toNat < n) := by
          apply propext
          omega
        simp [hrn, h, h2]
    · simp only [List.foldl_cons, List.foldl_nil, State.loadReg]
      rw [hs]
      rfl

/-- What FX65 does to the registers, and that it changes nothing else (R166). -/
theorem State.loadRegsUpTo_spec (s : State) (x : RegIx) :
    (∀ r : RegIx, (s.loadRegsUpTo x).readV r =
      if r.toNat ≤ x.toNat then memRead s.mem (s.dataAddr r.toNat) else s.readV r) ∧
    s.loadRegsUpTo x = { s with v := (s.loadRegsUpTo x).v } := by
  have := State.foldl_loadReg s (x.toNat + 1) (by have := x.isLt; omega)
  simpa only [Nat.lt_succ_iff, State.loadRegsUpTo] using this

/-! ## Framebuffer -/

/-- A pixel after a flip: the one flipped, modulo 64 and 32, and no other (R173). -/
theorem readPixel_flipPixel (fb : Framebuffer) (x y a b : Nat) :
    readPixel (flipPixel fb x y) a b =
      if a % 64 = x % 64 ∧ b % 32 = y % 32 then !readPixel fb a b else readPixel fb a b := by
  unfold readPixel flipPixel
  by_cases hb : b % 32 = y % 32
  · by_cases ha : a % 64 = x % 64
    · simp [ha, hb, readPixel]
    · have ha' : ¬ x % 64 = a % 64 := fun e => ha e.symm
      simp [ha, ha', hb]
  · have hb' : ¬ y % 32 = b % 32 := fun e => hb e.symm
    simp [hb, hb']

@[simp] theorem readPixel_clear (a b : Nat) : readPixel clearFramebuffer a b = false := by
  simp [readPixel, clearFramebuffer]

/-- Two framebuffers with equal pixels are equal. -/
theorem framebuffer_ext {f g : Framebuffer} (h : ∀ x y, x < 64 → y < 32 → readPixel f x y = readPixel g x y) : f = g := by
  apply Vector.ext
  intro y hy
  apply Vector.ext
  intro x hx
  have := h x y hx hy
  simpa [readPixel, Nat.mod_eq_of_lt hx, Nat.mod_eq_of_lt hy] using this

/-- One column of a sprite (R171): the pixel is flipped and its old value joins the collision flag, if the sprite bit is set. -/
theorem drawColumn_spec (b : Byte) (x0 y : Nat) (acc : Framebuffer × Bool) (j : Nat) :
    drawColumn b x0 y acc j =
      if spriteBit b j then (flipPixel acc.1 (x0 + j) y, acc.2 || readPixel acc.1 (x0 + j) y) else acc := by
  unfold drawColumn
  split
  · simp [readPixel_flipPixel]
  · rfl

/-- A pixel depends on its coordinates modulo 64 and 32 only (R173). -/
theorem readPixel_congr (fb : Framebuffer) (x y a b : Nat) (h1 : x % 64 = a % 64) (h2 : y % 32 = b % 32) :
    readPixel fb x y = readPixel fb a b := by
  unfold readPixel
  simp [h1, h2]

/-- The first `k` columns of a sprite row (R171, R174): a pixel is flipped exactly when a set bit falls on it, and the flag is set exactly
when such a pixel was lit. -/
theorem foldl_drawColumn (b : Byte) (x0 y : Nat) (acc : Framebuffer × Bool) (k : Nat) (hk : k ≤ 8) :
   (∀ px py, readPixel ((List.range k).foldl (drawColumn b x0 y) acc).1 px py =
      (readPixel acc.1 px py ^^ decide (∃ j, j < k ∧ spriteBit b j = true ∧ (x0 + j) % 64 = px % 64 ∧ y % 32 = py % 32))) ∧
   (((List.range k).foldl (drawColumn b x0 y) acc).2 = true ↔ acc.2 = true ∨ ∃ j, j < k ∧ spriteBit b j = true ∧ readPixel acc.1 (x0 + j) y = true) := by
  induction k with
  | zero => simp
  | succ k ih =>
    obtain ⟨h1, h2⟩ := ih (by omega)
    rw [List.range_succ, List.foldl_append]
    simp only [List.foldl_cons, List.foldl_nil]
    set A := (List.range k).foldl (drawColumn b x0 y) acc with hA
    rw [drawColumn_spec]
    by_cases hb : spriteBit b k = true
    · rw [if_pos hb]
      have hkk : readPixel A.1 (x0 + k) y = readPixel acc.1 (x0 + k) y := by
        rw [h1]
        have : ¬ ∃ j, j < k ∧ spriteBit b j = true ∧ (x0 + j) % 64 = (x0 + k) % 64 ∧ y % 32 = y % 32 := by
          rintro ⟨j, hj, _, h, _⟩; omega
        rw [decide_eq_false this, Bool.xor_false]
      constructor
      · intro px py
        simp only [readPixel_flipPixel]
        by_cases hc : px % 64 = (x0 + k) % 64 ∧ py % 32 = y % 32
        · rw [if_pos hc, readPixel_congr A.1 px py _ _ hc.1 hc.2, hkk, readPixel_congr acc.1 px py _ _ hc.1 hc.2]
          have : ∃ j, j < k + 1 ∧ spriteBit b j = true ∧ (x0 + j) % 64 = px % 64 ∧ y % 32 = py % 32 := ⟨k, by omega, hb, hc.1.symm, hc.2.symm⟩
          rw [decide_eq_true this, Bool.xor_true]
        · rw [if_neg hc, h1]
          congr 1
          apply decide_eq_decide.mpr
          constructor
          · rintro ⟨j, hj, h⟩; exact ⟨j, by omega, h⟩
          · rintro ⟨j, hj, h3, h4, h5⟩
            refine ⟨j, ?_, h3, h4, h5⟩
            have : j ≠ k := by rintro rfl; exact hc ⟨h4.symm, h5.symm⟩
            omega
      · simp only [Bool.or_eq_true, h2, hkk]
        constructor
        · rintro ((h | ⟨j, hj, h⟩) | h)
          · exact .inl h
          · exact .inr ⟨j, by omega, h⟩
          · exact .inr ⟨k, by omega, hb, h⟩
        · rintro (h | ⟨j, hj, h3, h4⟩)
          · exact .inl (.inl h)
          · by_cases hjk : j = k
            · subst hjk; exact .inr h4
            · exact .inl (.inr ⟨j, by omega, h3, h4⟩)
    · rw [if_neg hb]
      have hext : ∀ (P : Nat → Prop), (∃ j, j < k + 1 ∧ spriteBit b j = true ∧ P j) ↔ (∃ j, j < k ∧ spriteBit b j = true ∧ P j) := by
        intro P
        constructor
        · rintro ⟨j, hj, h3, h4⟩
          refine ⟨j, ?_, h3, h4⟩
          have : j ≠ k := by rintro rfl; exact hb h3
          omega
        · rintro ⟨j, hj, h⟩; exact ⟨j, by omega, h⟩
      constructor
      · intro px py
        rw [h1]; simp only [hext (fun j => (x0 + j) % 64 = px % 64 ∧ y % 32 = py % 32)]
      · rw [h2, hext (fun j => readPixel acc.1 (x0 + j) y = true)]

end Sys2Proof.Machine
end

