-- ==== Sys2Proof/Laws/Step.lean ====
section
/-! SUPPORT. What a step can do, said once, in the named phases of Machine/Cycle.lean; and the pop of RET. -/

namespace Sys2Proof.Machine

open Sys2Proof.Safety

/-- The tick does not touch what the fetch reads. -/
@[simp] theorem fetch_tick (s : State) : fetch (tick s) = fetch s := rfl

@[simp] theorem pcOutOfRange_tick (s : State) : pcOutOfRange (tick s) = pcOutOfRange s := rfl

theorem pcOutOfRange_eq_false (s : State) : pcOutOfRange s = false ↔ s.pc.toNat < 0x1000 := by
  rw [pcOutOfRange, decide_eq_false_iff_not, pcLimit, Nat.not_le]

theorem pcOutOfRange_eq_true (s : State) : pcOutOfRange s = true ↔ 0x1000 ≤ s.pc.toNat := by
  rw [pcOutOfRange, decide_eq_true_eq, pcLimit]

/-- DT after the tick, as a number: natural subtraction stops at zero (R28, R101). -/
theorem tick_dt_toNat (s : State) : (tick s).dt.toNat = if (s.sc + 1) % 2 = 0 then s.dt.toNat - 1 else s.dt.toNat := by
  have hlt := s.dt.isLt
  simp only [tick]
  split
  · next h =>
    rw [if_pos h.1, BitVec.toNat_sub]
    simp
    omega
  · next h => split <;> omega

/-- `executed` in the words of the machine. -/
theorem executed_eq (s : State) : executed s = if pcOutOfRange s = true then none else (decodeWord (fetch s)).toOption := by
  unfold executed pcOutOfRange
  simp only [decide_eq_true_eq]
  rfl

/-- A step is one of three things: the halt, an execution, a reserved word. -/
theorem step_forms (s : State) :
    (pcOutOfRange s = true ∧ executed s = none ∧ step s = .next (tick s).halt) ∨
    (∃ i, pcOutOfRange s = false ∧ decodeWord (fetch s) = .ok i ∧ executed s = some i ∧
      step s = exec i (preAdvance (tick s))) ∨
    (∃ why, pcOutOfRange s = false ∧ decodeWord (fetch s) = .error why ∧ executed s = none ∧
      step s = .next (preAdvance (tick s))) := by
  unfold step
  rw [executed_eq]
  cases hp : pcOutOfRange s with
  | true => exact .inl ⟨rfl, rfl, by simp [hp, execHalt]⟩
  | false =>
    cases hd : decodeWord (fetch s) with
    | ok i => exact .inr (.inl ⟨i, rfl, rfl, rfl, by simp [hp, hd]⟩)
    | error why => exact .inr (.inr ⟨why, rfl, rfl, rfl, by simp [hp, hd, execReserved]⟩)

/-- Where an instruction is executed, the step is its meaning after the tick and the pre-advance. -/
theorem step_of_executed {s : State} {i : Instr} (h : executed s = some i) : step s = exec i (preAdvance (tick s)) := by
  rcases step_forms s with ⟨_, he, _⟩ | ⟨j, _, _, he, hs⟩ | ⟨_, _, _, he, _⟩
  · rw [he] at h
    cases h
  · rw [he] at h
    cases h
    exact hs
  · rw [he] at h
    cases h

/-- RET either pops the last entry or, on the empty stack, halts. -/
theorem execRet_forms (s : State) :
    (∃ older a, s.stack = older ++ [a] ∧ execRet s = .next ((s.setStack older).jump a)) ∨
    (s.stack = [] ∧ execRet s = .next s.halt) := by
  unfold execRet
  rcases List.eq_nil_or_concat s.stack with h | ⟨older, a, h⟩
  · exact .inr ⟨h, by simp [h]⟩
  · exact .inl ⟨older, a, by simpa using h, by simp [h]⟩

/-! ## Placing a word (the loader's part of withFetchWord) -/

/-- The word placed at PC is the word the next step fetches. -/
theorem fetch_placeWord (s : State) (op : Opcode) : fetch (placeWord s op) = op := by
  have h0 := memRead_memWriteList_at s.mem s.pc.toNat [hiByte op, loByte op] 0 (by simp) (by simp [memSize])
  have h1 := memRead_memWriteList_at s.mem s.pc.toNat [hiByte op, loByte op] 1 (by simp) (by simp [memSize])
  unfold fetch placeWord
  simp only [State.setMem_mem, State.setMem_pc]
  rw [h1]
  simp only [Nat.add_zero, List.getElem_cons_zero] at h0
  rw [h0]
  exact wordOfBytes_hiByte_loByte op

end Sys2Proof.Machine

namespace Sys2Proof.Safety

open Sys2Proof.Machine

/-! ## Write sets -/

theorem mem_regsTo (x r : RegIx) : r ∈ regsTo x ↔ r.toNat ≤ x.toNat := by
  simp only [regsTo, List.mem_map, List.mem_range]
  constructor
  · rintro ⟨k, hk, rfl⟩
    simp only [BitVec.toNat_ofNat]
    omega
  · intro h
    exact ⟨r.toNat, by omega, by simp⟩

theorem mem_cellsFrom (s : State) (n a : Nat) : a ∈ cellsFrom s n ↔ ∃ k, k < n ∧ s.dataAddr k % memSize = a := by
  simp [cellsFrom]

/-- A run stored at I leaves every byte outside its cells. -/
theorem memRead_outside_cells (s : State) (ws : List Byte) (a : Nat) (h : a % memSize ∉ cellsFrom s ws.length) :
    memRead (memWriteList s.mem (s.dataAddr 0) ws) a = memRead s.mem a := by
  refine memRead_memWriteList_ne _ _ _ _ fun k hk e => h ((mem_cellsFrom _ _ _).mpr ⟨k, hk, ?_⟩)
  rw [e]
  rfl

end Sys2Proof.Safety
end

