-- ==== Sys2Proof/Laws/Conditions.lean ====
section
/-! SUPPORT. When a step meets a named condition of R193, in the terms of the instruction it executes. -/

namespace Sys2Proof.Machine

open Sys2Proof.Safety

/-- An access meets MemAddressOverflow exactly where its unreduced address leaves memory (R194). -/
theorem mem_memCondition (s : State) (k : Nat) (c : Condition) :
    c ∈ memCondition s k ↔ c = .memAddressOverflow (s.dataAddr k) ∧ memSize ≤ s.dataAddr k := by
  unfold memCondition
  by_cases h : memSize ≤ s.dataAddr k <;> simp [h]

/-- A pixel meets DrawWrapRange exactly where its bit is set and a coordinate needs more than one wrap (R173). -/
theorem mem_wrapCondition (b : Byte) (x0 y j : Nat) (c : Condition) :
    c ∈ wrapCondition b x0 y j ↔ c = .drawWrapRange (x0 + j) y ∧ spriteBit b j = true ∧ (128 ≤ x0 + j ∨ 64 ≤ y) := by
  unfold wrapCondition
  by_cases h : spriteBit b j = true ∧ (128 ≤ x0 + j ∨ 64 ≤ y)
  · simp [h]
  · rw [if_neg h]
    simp only [List.not_mem_nil, false_iff]
    exact fun hc => h hc.2

/-- EX9E and EXA1 meet KeyIndexRange exactly where Vx is above 15 (R196). -/
theorem mem_keyCondition (b : Byte) (c : Condition) : c ∈ keyCondition b ↔ c = .keyIndexRange b ∧ 15 < b.toNat := by
  unfold keyCondition
  by_cases h : 15 < b.toNat <;> simp [h]

/-- A step below the bound meets FetchOverrun at 0x0FFF, ReservedOpcode on a reserved word, and else what its instruction meets. -/
theorem mem_raised (s : State) (c : Condition) :
    c ∈ raised s ↔ s.pc.toNat < 0x1000 ∧
      ((s.pc = 0x0FFF#16 ∧ c = .fetchOverrun s.pc) ∨ (executed s = none ∧ c = .reservedOpcode (fetch s)) ∨
        ∃ i, executed s = some i ∧ c ∈ conditionsOf i (preAdvance (tick s))) := by
  have htp : (tick s).pc = s.pc := rfl
  have hff : ¬ (false = true) := by decide
  unfold raised
  rcases step_forms s with ⟨hp, he, -⟩ | ⟨i, hp, hd, he, -⟩ | ⟨w, hp, hd, he, -⟩
  · have hq := (pcOutOfRange_eq_true s).mp hp
    simp only [pcOutOfRange_tick, hp, if_true, List.not_mem_nil, false_iff]
    omega
  · have hq := (pcOutOfRange_eq_false s).mp hp
    simp only [pcOutOfRange_tick, hp, fetch_tick, hd, htp, he, hq, if_neg hff]
    split <;> simp [*]
  · have hq := (pcOutOfRange_eq_false s).mp hp
    simp only [pcOutOfRange_tick, hp, fetch_tick, hd, htp, he, hq, if_neg hff]
    split <;> simp [*]

end Sys2Proof.Machine
end

