-- ==== Sys2Proof/Laws/Hosted.lean ====
section
/-! SUPPORT. Runs with a host: what quiet moves can change, said once, and how a run begins, ends and compares with steps alone. -/

namespace Sys2Proof.Machine

open Sys2Proof.Safety

/-! ## The free random byte -/

/-- No host move touches which free random byte comes next (R210, log 4). -/
@[simp] theorem HostMove.apply_rndIndex (m : HostMove) (s : State) : (m.apply s).rndIndex = s.rndIndex := by cases m <;> rfl

/-! ## Quiet moves -/

@[simp] theorem HostMove.applyAll_nil (s : State) : HostMove.applyAll [] s = s := rfl

@[simp] theorem HostMove.applyAll_cons (m : HostMove) (ms : List HostMove) (s : State) :
    HostMove.applyAll (m :: ms) s = HostMove.applyAll ms (m.apply s) := rfl

/-- Quiet moves change the keys and the draw flag at most (R228). -/
theorem HostMove.applyAll_quiet {ms : List HostMove} (hq : ms.all HostMove.quiet = true) (s : State) :
    ∃ k d, HostMove.applyAll ms s = { s with keys := k, draw := d } := by
  induction ms generalizing s with
  | nil => exact ⟨s.keys, s.draw, rfl⟩
  | cons m ms ih =>
    simp only [List.all_cons, Bool.and_eq_true] at hq
    obtain ⟨k, d, hm⟩ := ih hq.2 (m.apply s)
    cases m with
    | setKeys _ => exact ⟨k, d, hm⟩
    | clearDraw => exact ⟨k, d, hm⟩
    | reset => cases hq.1
    | load _ => cases hq.1
    | start => cases hq.1

/-- Which instruction a step executes depends on PC and memory only. -/
theorem executed_keys_draw (s : State) (k : Keys) (d : Bool) : executed { s with keys := k, draw := d } = executed s := rfl

theorem executed_applyAll {ms : List HostMove} (hq : ms.all HostMove.quiet = true) (s : State) :
    executed (HostMove.applyAll ms s) = executed s := by
  obtain ⟨k, d, hm⟩ := HostMove.applyAll_quiet hq s
  rw [hm, executed_keys_draw]

/-! ## Runs -/

@[simp] theorem hostedRun_nil (s : State) : hostedRun [] s = .next s := rfl

/-- A run that gives a state begins with a step that gives one. -/
theorem hostedRun_cons {ms : List HostMove} {h : Schedule} {s t : State} :
    hostedRun (ms :: h) s = .next t ↔ ∃ u, step (HostMove.applyAll ms s) = .next u ∧ hostedRun h u = .next t := by
  rw [hostedRun]
  cases step (HostMove.applyAll ms s) <;> simp

/-- A run is its parts, one after the other. -/
theorem hostedRun_append {a b : Schedule} {s t : State} :
    hostedRun (a ++ b) s = .next t ↔ ∃ u, hostedRun a s = .next u ∧ hostedRun b u = .next t := by
  induction a generalizing s with
  | nil => simp
  | cons ms a ih =>
    simp only [List.cons_append, hostedRun_cons, ih]
    constructor
    · rintro ⟨v, h1, u, h2, h3⟩
      exact ⟨u, ⟨v, h1, h2⟩, h3⟩
    · rintro ⟨u, ⟨v, h1, h2⟩, h3⟩
      exact ⟨v, h1, u, h2, h3⟩

/-- The last step of a run. -/
theorem hostedRun_concat {h : Schedule} {ms : List HostMove} {s t : State} :
    hostedRun (h ++ [ms]) s = .next t ↔ ∃ u, hostedRun h s = .next u ∧ step (HostMove.applyAll ms u) = .next t := by
  simp [hostedRun_append, hostedRun_cons]

/-- A host that does nothing leaves the run of the steps alone. -/
theorem hostedRun_replicate (k : Nat) (s : State) : hostedRun (List.replicate k []) s = core.run k s := by
  induction k generalizing s with
  | zero => rfl
  | succ k ih =>
    have hc : core.step s = step s := rfl
    simp only [List.replicate_succ, hostedRun, HostMove.applyAll_nil, Host.Core.run, hc]
    cases step s with
    | next t => exact ih t
    | fault r => rfl
    | refused r => rfl

/-- What a run never executes, its tail does not. -/
theorem neverExecutes_cons {p : Instr → Prop} {ms : List HostMove} {h : Schedule} {s u : State}
    (hn : NeverExecutes p (ms :: h) s) (hs : step (HostMove.applyAll ms s) = .next u) :
    (∀ i, executed (HostMove.applyAll ms s) = some i → ¬ p i) ∧ NeverExecutes p h u :=
  ⟨hn 0 (by simp) s rfl, fun n hlt v hv =>
    hn (n + 1) (by simpa using hlt) v (by rw [List.take_succ_cons, hostedRun_cons]; exact ⟨u, hs, hv⟩)⟩

/-- A quiet host only makes moves it is allowed, so what its runs reach is reachable. -/
theorem reachable_hostedRun {h : Schedule} {s t : State} (hr : Reachable s) (hq : h.quiet = true)
    (ht : hostedRun h s = .next t) : Reachable t := by
  induction h generalizing s with
  | nil =>
    cases ht
    exact hr
  | cons ms h ih =>
    simp only [Schedule.quiet, List.all_cons, Bool.and_eq_true] at hq
    obtain ⟨u, hs, hu⟩ := hostedRun_cons.mp ht
    refine ih (.step ?_ hs) hq.2 hu
    have hms := hq.1
    clear hs ht hq ih
    induction ms generalizing s with
    | nil => exact hr
    | cons m ms ihm =>
      simp only [List.all_cons, Bool.and_eq_true] at hms
      refine ihm (.host m hr ?_) hms.2
      cases m with
      | setKeys _ => rfl
      | clearDraw => rfl
      | reset => rfl
      | start => rfl
      | load _ => cases hms.1

end Sys2Proof.Machine
end

