-- ==== Sys2Proof/Laws/PerInstr.lean ====
section
/-! SUPPORT. Statements for all instructions, one lemma per constructor. The family RowFits: an instruction's word meets the mask and
match of its row of 30_encoding R86. -/

namespace Sys2Proof.Laws.RowFits

/-- The word of `i` selects the row of `i`: (op and mask) = match (R86). -/
def Statement (i : Instr) : Prop := encode i &&& maskOf i = matchOf i

/-- Masking a word of format F-NNN field by field. -/
theorem encodeNNN_and (f g : Nibble) (a b : Addr12) : encodeNNN f a &&& encodeNNN g b = encodeNNN (f &&& g) (a &&& b) :=
  BitVec.and_append

/-- Masking a word of format F-XKK or F-XSS field by field. -/
theorem encodeXKK_and (f g : Nibble) (x y : RegIx) (a b : Byte) :
    encodeXKK f x a &&& encodeXKK g y b = encodeXKK (f &&& g) (x &&& y) (a &&& b) :=
  BitVec.and_append.trans (congrArg (BitVec.append (f &&& g)) BitVec.and_append)

/-- Masking a word of format F-XYS or F-XYN field by field. -/
theorem encodeXYN_and (f g : Nibble) (x y u w : RegIx) (a b : Nibble) :
    encodeXYN f x u a &&& encodeXYN g y w b = encodeXYN (f &&& g) (x &&& y) (u &&& w) (a &&& b) :=
  BitVec.and_append.trans (congrArg (BitVec.append (f &&& g))
    (BitVec.and_append.trans (congrArg (BitVec.append (x &&& y)) BitVec.and_append)))

/-- The mask of the rows that select on the family alone, cut as each format cuts it. -/
theorem nnn_row (f : Nibble) (nnn : Addr12) : encodeNNN f nnn &&& 0xF000#16 = encodeNNN f 0#12 := by
  have := encodeNNN_and f 0xF#4 nnn 0#12
  rwa [BitVec.and_zero, show (0xF#4 : Nibble) = BitVec.allOnes 4 from rfl, BitVec.and_allOnes] at this

theorem xkk_row (f : Nibble) (x : RegIx) (kk : Byte) : encodeXKK f x kk &&& 0xF000#16 = encodeXKK f 0#4 0#8 := by
  have := encodeXKK_and f 0xF#4 x 0#4 kk 0#8
  rwa [BitVec.and_zero, BitVec.and_zero, show (0xF#4 : Nibble) = BitVec.allOnes 4 from rfl, BitVec.and_allOnes] at this

theorem xyn_row (f : Nibble) (x y : RegIx) (n : Nibble) : encodeXYN f x y n &&& 0xF000#16 = encodeXYN f 0#4 0#4 0#4 := by
  have := encodeXYN_and f 0xF#4 x 0#4 y 0#4 n 0#4
  rwa [BitVec.and_zero, BitVec.and_zero, BitVec.and_zero, show (0xF#4 : Nibble) = BitVec.allOnes 4 from rfl,
    BitVec.and_allOnes] at this

/-- The mask of family 0x8: family and low nibble. -/
theorem xys_row (f : Nibble) (x y : RegIx) (n : Nibble) : encodeXYN f x y n &&& 0xF00F#16 = encodeXYN f 0#4 0#4 n := by
  have := encodeXYN_and f 0xF#4 x 0#4 y 0#4 n 0xF#4
  rwa [BitVec.and_zero, BitVec.and_zero, show (0xF#4 : Nibble) = BitVec.allOnes 4 from rfl, BitVec.and_allOnes,
    BitVec.and_allOnes] at this

/-- The mask of families 0xE and 0xF: family and low byte. -/
theorem xss_row (f : Nibble) (x : RegIx) (kk : Byte) : encodeXKK f x kk &&& 0xF0FF#16 = encodeXKK f 0#4 kk := by
  have := encodeXKK_and f 0xF#4 x 0#4 kk 0xFF#8
  rwa [BitVec.and_zero, show (0xF#4 : Nibble) = BitVec.allOnes 4 from rfl, show (0xFF#8 : Byte) = BitVec.allOnes 8 from rfl,
    BitVec.and_allOnes, BitVec.and_allOnes] at this

theorem cls : Statement (.cls) := rfl
theorem ret : Statement (.ret) := rfl
theorem jp (nnn : Addr12) : Statement (.jp nnn) := nnn_row _ nnn
theorem call (nnn : Addr12) : Statement (.call nnn) := nnn_row _ nnn
theorem seImm (x : RegIx) (kk : Byte) : Statement (.seImm x kk) := xkk_row _ x kk
theorem sneImm (x : RegIx) (kk : Byte) : Statement (.sneImm x kk) := xkk_row _ x kk
theorem seReg (x : RegIx) (y : RegIx) (z : Nibble) : Statement (.seReg x y z) := xyn_row _ x y z
theorem ldImm (x : RegIx) (kk : Byte) : Statement (.ldImm x kk) := xkk_row _ x kk
theorem addImm (x : RegIx) (kk : Byte) : Statement (.addImm x kk) := xkk_row _ x kk
theorem ldReg (x : RegIx) (y : RegIx) : Statement (.ldReg x y) := xys_row _ x y _
theorem orReg (x : RegIx) (y : RegIx) : Statement (.orReg x y) := xys_row _ x y _
theorem andReg (x : RegIx) (y : RegIx) : Statement (.andReg x y) := xys_row _ x y _
theorem xorReg (x : RegIx) (y : RegIx) : Statement (.xorReg x y) := xys_row _ x y _
theorem addReg (x : RegIx) (y : RegIx) : Statement (.addReg x y) := xys_row _ x y _
theorem sub (x : RegIx) (y : RegIx) : Statement (.sub x y) := xys_row _ x y _
theorem shr (x : RegIx) (y : RegIx) : Statement (.shr x y) := xys_row _ x y _
theorem subn (x : RegIx) (y : RegIx) : Statement (.subn x y) := xys_row _ x y _
theorem shl (x : RegIx) (y : RegIx) : Statement (.shl x y) := xys_row _ x y _
theorem sneReg (x : RegIx) (y : RegIx) (z : Nibble) : Statement (.sneReg x y z) := xyn_row _ x y z
theorem ldI (nnn : Addr12) : Statement (.ldI nnn) := nnn_row _ nnn
theorem jpV0 (nnn : Addr12) : Statement (.jpV0 nnn) := nnn_row _ nnn
theorem rnd (x : RegIx) (kk : Byte) : Statement (.rnd x kk) := xkk_row _ x kk
theorem drw (x : RegIx) (y : RegIx) (n : Nibble) : Statement (.drw x y n) := xyn_row _ x y n
theorem skp (x : RegIx) : Statement (.skp x) := xss_row _ x _
theorem sknp (x : RegIx) : Statement (.sknp x) := xss_row _ x _
theorem ldVxDt (x : RegIx) : Statement (.ldVxDt x) := xss_row _ x _
theorem ldVxK (x : RegIx) : Statement (.ldVxK x) := xss_row _ x _
theorem ldDtVx (x : RegIx) : Statement (.ldDtVx x) := xss_row _ x _
theorem ldStVx (x : RegIx) : Statement (.ldStVx x) := xss_row _ x _
theorem addI (x : RegIx) : Statement (.addI x) := xss_row _ x _
theorem ldF (x : RegIx) : Statement (.ldF x) := xss_row _ x _
theorem ldB (x : RegIx) : Statement (.ldB x) := xss_row _ x _
theorem stRegs (x : RegIx) : Statement (.stRegs x) := xss_row _ x _
theorem ldRegs (x : RegIx) : Statement (.ldRegs x) := xss_row _ x _

end Sys2Proof.Laws.RowFits
end

