-- ==== Sys2Proof/Tests/Slice0.lean ====
section
/-! SUPPORT. Tests. The words of the decode tests are written out from the formats of R81 and the table of R86. The expected results
of the step tests are the vectors of spec/95_test_vectors.md, named in each comment. The witnesses at the end show that the
hypotheses of each obligation are met. -/

namespace Sys2Proof.Tests

open Sys2Proof.Machine Sys2Proof.Safety

set_option Elab.async false

/-! ## Well-formedness: each check refuses an ill-formed term (R87, R92, R60) -/

theorem test_wf_seReg_low_nibble : (Instr.seReg 0x1#4 0x2#4 0x7#4).canonical = false ∧
    (Instr.seReg 0x1#4 0x2#4 0x0#4).canonical = true := by decide

theorem test_wf_sneReg_low_nibble : (Instr.sneReg 0x1#4 0x2#4 0xF#4).canonical = false ∧
    (Instr.sneReg 0x1#4 0x2#4 0x0#4).canonical = true := by decide

theorem test_wf_shr_unused_y : (Instr.shr 0x1#4 0x2#4).canonical = false ∧ (Instr.shr 0x1#4 0x0#4).canonical = true := by decide

theorem test_wf_shl_unused_y : (Instr.shl 0x1#4 0x2#4).canonical = false ∧ (Instr.shl 0x1#4 0x0#4).canonical = true := by decide

theorem test_wf_image_too_long : imageFits (List.replicate 0xE01 0x00#8) = false ∧
    imageFits (List.replicate 0xE00 0x00#8) = true := by
  simp only [imageFits, List.length_replicate]
  decide

/-! ## Decoding: one word per constructor -/

theorem test_decode_cls : decodeWord 0x00E0#16 = .ok .cls := by decide
theorem test_decode_ret : decodeWord 0x00EE#16 = .ok .ret := by decide
theorem test_decode_jp : decodeWord 0x1234#16 = .ok (.jp 0x234#12) := by decide
theorem test_decode_call : decodeWord 0x2ABC#16 = .ok (.call 0xABC#12) := by decide
theorem test_decode_seImm : decodeWord 0x3A42#16 = .ok (.seImm 0xA#4 0x42#8) := by decide
theorem test_decode_sneImm : decodeWord 0x4B07#16 = .ok (.sneImm 0xB#4 0x07#8) := by decide
theorem test_decode_seReg : decodeWord 0x5127#16 = .ok (.seReg 0x1#4 0x2#4 0x7#4) := by decide
theorem test_decode_ldImm : decodeWord 0x6FAB#16 = .ok (.ldImm 0xF#4 0xAB#8) := by decide
theorem test_decode_addImm : decodeWord 0x7102#16 = .ok (.addImm 0x1#4 0x02#8) := by decide
theorem test_decode_ldReg : decodeWord 0x8120#16 = .ok (.ldReg 0x1#4 0x2#4) := by decide
theorem test_decode_orReg : decodeWord 0x8341#16 = .ok (.orReg 0x3#4 0x4#4) := by decide
theorem test_decode_andReg : decodeWord 0x8562#16 = .ok (.andReg 0x5#4 0x6#4) := by decide
theorem test_decode_xorReg : decodeWord 0x8783#16 = .ok (.xorReg 0x7#4 0x8#4) := by decide
theorem test_decode_addReg : decodeWord 0x89A4#16 = .ok (.addReg 0x9#4 0xA#4) := by decide
theorem test_decode_sub : decodeWord 0x8BC5#16 = .ok (.sub 0xB#4 0xC#4) := by decide
theorem test_decode_shr : decodeWord 0x8126#16 = .ok (.shr 0x1#4 0x2#4) := by decide
theorem test_decode_subn : decodeWord 0x8DE7#16 = .ok (.subn 0xD#4 0xE#4) := by decide
theorem test_decode_shl : decodeWord 0x812E#16 = .ok (.shl 0x1#4 0x2#4) := by decide
theorem test_decode_sneReg : decodeWord 0x912F#16 = .ok (.sneReg 0x1#4 0x2#4 0xF#4) := by decide
theorem test_decode_ldI : decodeWord 0xA300#16 = .ok (.ldI 0x300#12) := by decide
theorem test_decode_jpV0 : decodeWord 0xBF01#16 = .ok (.jpV0 0xF01#12) := by decide
theorem test_decode_rnd : decodeWord 0xC10F#16 = .ok (.rnd 0x1#4 0x0F#8) := by decide
theorem test_decode_drw : decodeWord 0xD015#16 = .ok (.drw 0x0#4 0x1#4 0x5#4) := by decide
theorem test_decode_skp : decodeWord 0xE39E#16 = .ok (.skp 0x3#4) := by decide
theorem test_decode_sknp : decodeWord 0xE4A1#16 = .ok (.sknp 0x4#4) := by decide
theorem test_decode_ldVxDt : decodeWord 0xF107#16 = .ok (.ldVxDt 0x1#4) := by decide
theorem test_decode_ldVxK : decodeWord 0xF30A#16 = .ok (.ldVxK 0x3#4) := by decide
theorem test_decode_ldDtVx : decodeWord 0xF215#16 = .ok (.ldDtVx 0x2#4) := by decide
theorem test_decode_ldStVx : decodeWord 0xF418#16 = .ok (.ldStVx 0x4#4) := by decide
theorem test_decode_addI : decodeWord 0xFF1E#16 = .ok (.addI 0xF#4) := by decide
theorem test_decode_ldF : decodeWord 0xF329#16 = .ok (.ldF 0x3#4) := by decide
theorem test_decode_ldB : decodeWord 0xF533#16 = .ok (.ldB 0x5#4) := by decide
theorem test_decode_stRegs : decodeWord 0xF255#16 = .ok (.stRegs 0x2#4) := by decide
theorem test_decode_ldRegs : decodeWord 0xF665#16 = .ok (.ldRegs 0x6#4) := by decide

/-! ## Reserved words, by class (2.2: T-RES-1, 3, 5, 7, 10) and a truncated byte list -/

theorem test_reserved_family0 : decodeWord 0x0000#16 = .error (.reservedFamily0 0x0000#16) ∧
    decodeWord 0x00E1#16 = .error (.reservedFamily0 0x00E1#16) := by decide
theorem test_reserved_family8 : decodeWord 0x8128#16 = .error (.reservedFamily8 0x8128#16) ∧
    decodeWord 0x812F#16 = .error (.reservedFamily8 0x812F#16) := by decide
theorem test_reserved_familyE : decodeWord 0xE19F#16 = .error (.reservedFamilyE 0xE19F#16) := by decide
theorem test_reserved_familyF : decodeWord 0xF175#16 = .error (.reservedFamilyF 0xF175#16) := by decide
theorem test_truncated : decodeBytes [0x60#8] = .error .truncated := by decide

/-- T-STEP-9: the byte at the lower address is the high byte (R52). -/
theorem test_big_endian : decodeBytes [0x12#8, 0x34#8, 0x56#8] = .ok (.jp 0x234#12, [0x56#8]) ∧
    encodeBytes (.jp 0x234#12) = [0x12#8, 0x34#8] := by decide

/-- The number of a table word is its two bytes, high byte at the lower address. -/
theorem test_table_word : decodeTableWord 16 0x8124 = some (.addReg 0x1#4 0x2#4) ∧ decodeTableWord 16 0x8128 = none := by decide

/-! ## One step: at most two tests per instruction -/

/-- The reset state with some registers set and the word at PC. -/
def start (regs : List (RegIx × Byte)) (w : Nat) : State :=
  (regs.foldl (fun s p => s.writeV p.1 p.2) State.reset).withFetchWord 16 w

/-- The step from `s` gives a next state that meets `p`. -/
def gives (s : State) (p : State → Bool) : Bool :=
  match step s with
  | .next t => p t
  | .fault _ | .refused _ => false

/-- T-DRW-17. -/
theorem test_cls : gives { start [(vf, 0x01#8)] 0x00E0 with fb := flipPixel clearFramebuffer 63 31 }
    (fun t => !readPixel t.fb 63 31 && !readPixel t.fb 0 0 && t.draw && t.readV vf == 0x01#8 && t.pc == 0x0202#16) = true := by decide +kernel

/-- T-FLOW-8. -/
theorem test_ret_pops_last : gives { start [] 0x00EE with stack := [0x0206#16, 0x030A#16] }
    (fun t => t.pc == 0x030A#16 && t.stack == [0x0206#16] && !t.running) = true := by decide +kernel

/-- T-FLOW-9. -/
theorem test_ret_empty_halts : gives { start [] 0x00EE with running := true }
    (fun t => t.pc == 0x0202#16 && t.stack == [] && !t.running) = true := by decide +kernel

/-- T-FLOW-4. -/
theorem test_jp : gives (start [] 0x1FFF) (fun t => t.pc == 0x0FFF#16 && t.stack == []) = true := by decide +kernel

/-- T-FLOW-5. -/
theorem test_call : gives (start [] 0x2ABC) (fun t => t.pc == 0x0ABC#16 && t.stack == [0x0202#16]) = true := by decide +kernel

/-- T-FLOW-6. -/
theorem test_call_top : gives (State.withFetchWord { State.reset with pc := 0x0FFE#16 } 16 0x2300)
    (fun t => t.pc == 0x0300#16 && t.stack == [0x1000#16]) = true := by decide +kernel

/-- T-SKIP-1, T-SKIP-2. -/
theorem test_seImm : gives (start [(0xA#4, 0x42#8)] 0x3A42) (fun t => t.pc == 0x0204#16) = true ∧
    gives (start [(0xA#4, 0x43#8)] 0x3A42) (fun t => t.pc == 0x0202#16) = true := by decide +kernel

/-- T-SKIP-3, T-SKIP-4. -/
theorem test_sneImm : gives (start [(0xA#4, 0x42#8)] 0x4A42) (fun t => t.pc == 0x0202#16) = true ∧
    gives (start [(0xA#4, 0x43#8)] 0x4A42) (fun t => t.pc == 0x0204#16) = true := by decide +kernel

/-- T-SKIP-8, T-SKIP-6. -/
theorem test_seReg : gives (start [(0x1#4, 0x07#8), (0x2#4, 0x07#8)] 0x5127) (fun t => t.pc == 0x0204#16) = true ∧
    gives (start [(0x1#4, 0x07#8), (0x2#4, 0x08#8)] 0x5120) (fun t => t.pc == 0x0202#16) = true := by decide +kernel

/-- T-SKIP-9, T-SKIP-12. -/
theorem test_sneReg : gives (start [(0x1#4, 0x07#8), (0x2#4, 0x07#8)] 0x9120) (fun t => t.pc == 0x0202#16) = true ∧
    gives (start [(0x1#4, 0x07#8), (0x2#4, 0x08#8)] 0x912F) (fun t => t.pc == 0x0204#16) = true := by decide +kernel

/-- T-ALU-2. -/
theorem test_ldImm : gives (start [] 0x6FAB) (fun t => t.readV vf == 0xAB#8 && t.readV 0xE#4 == 0x00#8) = true := by decide +kernel

/-- T-ALU-3. -/
theorem test_addImm_no_carry : gives (start [(0x1#4, 0xFF#8), (vf, 0x07#8)] 0x7102)
    (fun t => t.readV 0x1#4 == 0x01#8 && t.readV vf == 0x07#8) = true := by decide +kernel

/-- T-ALU-6. -/
theorem test_ldReg : gives (start [(0x2#4, 0x7B#8)] 0x8120)
    (fun t => t.readV 0x1#4 == 0x7B#8 && t.readV 0x2#4 == 0x7B#8) = true := by decide +kernel

/-- T-ALU-7. -/
theorem test_orReg : gives (start [(0x1#4, 0xF0#8), (0x2#4, 0x0F#8), (vf, 0x09#8)] 0x8121)
    (fun t => t.readV 0x1#4 == 0xFF#8 && t.readV vf == 0x09#8) = true := by decide +kernel

/-- T-ALU-8. -/
theorem test_andReg : gives (start [(0x1#4, 0xF0#8), (0x2#4, 0x3C#8), (vf, 0x09#8)] 0x8122)
    (fun t => t.readV 0x1#4 == 0x30#8 && t.readV vf == 0x09#8) = true := by decide +kernel

/-- T-ALU-9. -/
theorem test_xorReg : gives (start [(0x1#4, 0xF0#8), (0x2#4, 0x3C#8), (vf, 0x09#8)] 0x8123)
    (fun t => t.readV 0x1#4 == 0xCC#8 && t.readV vf == 0x09#8) = true := by decide +kernel

/-- T-ALU-12, T-ALU-13. -/
theorem test_addReg_carry : gives (start [(0x0#4, 0xFF#8), (0x1#4, 0x01#8)] 0x8014)
      (fun t => t.readV 0x0#4 == 0x00#8 && t.readV vf == 0x01#8) = true ∧
    gives (start [(0x0#4, 0xFE#8), (0x1#4, 0x01#8), (vf, 0x01#8)] 0x8014)
      (fun t => t.readV 0x0#4 == 0xFF#8 && t.readV vf == 0x00#8) = true := by decide +kernel

/-- T-VF-1, T-VF-3. -/
theorem test_addReg_vf : gives (start [(vf, 0xF0#8), (0x1#4, 0x20#8)] 0x8F14) (fun t => t.readV vf == 0x01#8) = true ∧
    gives (start [(0x1#4, 0xFF#8), (vf, 0x02#8)] 0x81F4)
      (fun t => t.readV 0x1#4 == 0x01#8 && t.readV vf == 0x01#8) = true := by decide +kernel

/-- T-ALU-17, T-ALU-18. -/
theorem test_sub : gives (start [(0x1#4, 0x03#8), (0x2#4, 0x0A#8), (vf, 0x01#8)] 0x8125)
      (fun t => t.readV 0x1#4 == 0xF9#8 && t.readV vf == 0x00#8) = true ∧
    gives (start [(0x1#4, 0x05#8), (0x2#4, 0x05#8), (vf, 0x01#8)] 0x8125)
      (fun t => t.readV 0x1#4 == 0x00#8 && t.readV vf == 0x00#8) = true := by decide +kernel

/-- T-VF-6, T-VF-8. -/
theorem test_sub_vf : gives (start [(vf, 0x09#8), (0x1#4, 0x03#8)] 0x8F15) (fun t => t.readV vf == 0xFE#8) = true ∧
    gives (start [(0x1#4, 0x05#8), (vf, 0x03#8)] 0x81F5)
      (fun t => t.readV 0x1#4 == 0x04#8 && t.readV vf == 0x01#8) = true := by decide +kernel

/-- T-ALU-21, T-ALU-24. -/
theorem test_shr : gives (start [(0x1#4, 0x05#8)] 0x8106)
      (fun t => t.readV 0x1#4 == 0x02#8 && t.readV vf == 0x01#8) = true ∧
    gives (start [(0x1#4, 0x04#8), (0x2#4, 0xFF#8)] 0x8126)
      (fun t => t.readV 0x1#4 == 0x02#8 && t.readV vf == 0x00#8 && t.readV 0x2#4 == 0xFF#8) = true := by decide +kernel

/-- T-VF-11. -/
theorem test_shr_vf : gives (start [(vf, 0x03#8)] 0x8F06) (fun t => t.readV vf == 0x00#8) = true := by decide +kernel

/-- T-ALU-25, T-ALU-26. -/
theorem test_subn : gives (start [(0x1#4, 0x03#8), (0x2#4, 0x0A#8)] 0x8127)
      (fun t => t.readV 0x1#4 == 0x07#8 && t.readV vf == 0x01#8) = true ∧
    gives (start [(0x1#4, 0x0A#8), (0x2#4, 0x03#8), (vf, 0x01#8)] 0x8127)
      (fun t => t.readV 0x1#4 == 0xF9#8 && t.readV vf == 0x00#8) = true := by decide +kernel

/-- T-VF-13, T-VF-15. -/
theorem test_subn_vf : gives (start [(vf, 0x03#8), (0x1#4, 0x09#8)] 0x8F17) (fun t => t.readV vf == 0x08#8) = true ∧
    gives (start [(0x1#4, 0x03#8), (vf, 0x05#8)] 0x81F7)
      (fun t => t.readV 0x1#4 == 0xFE#8 && t.readV vf == 0x01#8) = true := by decide +kernel

/-- T-ALU-28, T-ALU-31. -/
theorem test_shl : gives (start [(0x1#4, 0x81#8)] 0x810E)
      (fun t => t.readV 0x1#4 == 0x02#8 && t.readV vf == 0x01#8) = true ∧
    gives (start [(0x1#4, 0x01#8), (0x2#4, 0xFF#8)] 0x812E)
      (fun t => t.readV 0x1#4 == 0x02#8 && t.readV vf == 0x00#8 && t.readV 0x2#4 == 0xFF#8) = true := by decide +kernel

/-- T-VF-18. -/
theorem test_shl_vf : gives (start [(vf, 0x81#8)] 0x8F0E) (fun t => t.readV vf == 0x01#8) = true := by decide +kernel

/-- T-IDX-1. -/
theorem test_ldI : gives { start [] 0xA300 with i := 0xFFFF#16 } (fun t => t.i == 0x0300#16) = true := by decide +kernel

/-- T-FLOW-12, T-FLOW-14. -/
theorem test_jpV0 : gives (start [(0x0#4, 0xFF#8)] 0xBFFF) (fun t => t.pc == 0x10FE#16) = true ∧
    gives (start [(0x3#4, 0x10#8)] 0xB300) (fun t => t.pc == 0x0300#16) = true := by decide +kernel

/-- T-ALU-35 at mask 0x00 and T-ALU-34: whatever the free byte is. -/
theorem test_rnd : ∃ t, step (start [(0x1#4, 0x55#8)] 0xC1FF) = .next t ∧ t.readV 0x1#4 = (Config.rnd 0 &&& 0xFF#8) ∧
    t.rndIndex = 1 := ⟨_, rfl, rfl, rfl⟩

/-- T-DRW-9: 8 pixels of row 0 wrap at the right edge. -/
theorem test_drw_wraps : gives (State.withFetchWord { State.reset with
      i := 0x0300#16, mem := memWrite [] 0x300 0xFF#8, v := State.reset.v.set 0 0x3C#8 } 16 0xD011)
    (fun t => readPixel t.fb 60 0 && readPixel t.fb 63 0 && readPixel t.fb 0 0 && readPixel t.fb 3 0 && !readPixel t.fb 4 0
      && !readPixel t.fb 59 0 && !readPixel t.fb 0 1 && t.readV vf == 0x00#8 && t.draw) = true := by decide +kernel

/-- T-DRW-6, the first draw: a lit pixel is erased, VF is 1. -/
theorem test_drw_collides : gives (State.withFetchWord { State.reset with
      i := 0x0300#16, mem := memWrite [] 0x300 0xC0#8, fb := flipPixel clearFramebuffer 0 0 } 16 0xD011)
    (fun t => !readPixel t.fb 0 0 && readPixel t.fb 1 0 && !readPixel t.fb 2 0 && t.readV vf == 0x01#8) = true := by decide +kernel

/-- T-SKIP-15, T-SKIP-14. -/
theorem test_skp : gives { start [(0x3#4, 0x1A#8)] 0xE39E with keys := 0x0400#16 } (fun t => t.pc == 0x0204#16) = true ∧
    gives (start [(0x3#4, 0x0A#8)] 0xE39E) (fun t => t.pc == 0x0202#16) = true := by decide +kernel

/-- T-SKIP-18, T-SKIP-17. -/
theorem test_sknp : gives { start [(0x3#4, 0xFF#8)] 0xE3A1 with keys := 0x8000#16 } (fun t => t.pc == 0x0202#16) = true ∧
    gives (start [(0x3#4, 0x0A#8)] 0xE3A1) (fun t => t.pc == 0x0204#16) = true := by decide +kernel

/-- T-TMR-1, T-TMR-2. -/
theorem test_ldVxDt : gives { start [] 0xF107 with dt := 0x05#8, sc := 0 }
      (fun t => t.readV 0x1#4 == 0x05#8 && t.dt == 0x05#8) = true ∧
    gives { start [] 0xF107 with dt := 0x05#8, sc := 1 } (fun t => t.readV 0x1#4 == 0x04#8 && t.dt == 0x04#8) = true := by decide +kernel

/-- T-TMR-9. -/
theorem test_ldVxK : gives { start [(0x3#4, 0x77#8)] 0xF30A with keys := 0x0002#16 }
    (fun t => t.pc == 0x0202#16 && t.readV 0x3#4 == 0x77#8) = true := by decide +kernel

/-- T-TMR-6. -/
theorem test_ldDtVx : gives { start [(0x0#4, 0x05#8)] 0xF015 with dt := 0x09#8, sc := 1 }
    (fun t => t.dt == 0x05#8 && t.sc == 2) = true := by decide +kernel

/-- T-TMR-11. -/
theorem test_ldStVx : gives (start [(0x2#4, 0x10#8)] 0xF218)
    (fun t => t.pc == 0x0202#16 && t.dt == 0x00#8 && t.sc == 1) = true := by decide +kernel

/-- T-IDX-3, T-IDX-4. -/
theorem test_addI : gives { start [(0x2#4, 0x05#8), (vf, 0x07#8)] 0xF21E with i := 0x0FFE#16 }
      (fun t => t.i == 0x1003#16 && t.readV vf == 0x07#8) = true ∧
    gives { start [(0x2#4, 0x02#8)] 0xF21E with i := 0xFFFF#16 } (fun t => t.i == 0x0001#16) = true := by decide +kernel

/-- T-IDX-8. -/
theorem test_ldF : gives (start [(0x3#4, 0xFF#8)] 0xF329) (fun t => t.i == 0x04FB#16) = true := by decide +kernel

/-- T-IDX-10. -/
theorem test_ldB : gives { start [(0x0#4, 0xEA#8)] 0xF033 with i := 0x0300#16 }
    (fun t => memRead t.mem 0x300 == 0x02#8 && memRead t.mem 0x301 == 0x03#8 && memRead t.mem 0x302 == 0x04#8
      && t.i == 0x0300#16) = true := by decide +kernel

/-- T-IDX-14: the third digit lands on the font at 0x000. -/
theorem test_ldB_wraps : gives { start [(0x0#4, 0x7B#8)] 0xF033 with i := 0x0FFE#16 }
    (fun t => memRead t.mem 0xFFE == 0x01#8 && memRead t.mem 0xFFF == 0x02#8 && memRead t.mem 0x000 == 0x03#8) = true := by
  decide +kernel

/-- T-IDX-16. -/
theorem test_stRegs : gives { start [(0x0#4, 0x11#8), (0x1#4, 0x22#8), (0x2#4, 0x33#8), (0x3#4, 0x44#8)] 0xF255
      with i := 0x0400#16 }
    (fun t => memRead t.mem 0x400 == 0x11#8 && memRead t.mem 0x402 == 0x33#8 && memRead t.mem 0x403 == 0x00#8
      && t.i == 0x0400#16) = true := by decide +kernel

/-- T-IDX-20. -/
theorem test_stRegs_wraps : gives { start [(0x0#4, 0x99#8)] 0xF055 with i := 0x1003#16 }
    (fun t => memRead t.mem 0x003 == 0x99#8 && t.i == 0x1003#16) = true := by decide +kernel

/-- T-IDX-25. -/
theorem test_ldRegs : gives { start [(0x5#4, 0x77#8)] 0xF465 with i := 0x0000#16 }
    (fun t => t.readV 0x0#4 == 0xF0#8 && t.readV 0x1#4 == 0x90#8 && t.readV 0x4#4 == 0xF0#8 && t.readV 0x5#4 == 0x77#8
      && t.i == 0x0000#16) = true := by decide +kernel

/-! ## The step around the instruction -/

/-- T-STEP-2: a halting step still ticks. -/
theorem test_halt_ticks : gives { State.reset with pc := 0x1000#16, dt := 0x04#8, sc := 1, running := true }
    (fun t => t.pc == 0x1000#16 && t.dt == 0x03#8 && t.sc == 2 && !t.running) = true := by decide +kernel

/-- T-STEP-6: at 0x0FFF the second byte is the font byte at 0x000. -/
theorem test_fetch_wraps : gives { State.reset with pc := 0x0FFF#16, mem := memWrite [] 0xFFF 0x6A#8 }
    (fun t => t.readV 0xA#4 == 0xF0#8 && t.pc == 0x1001#16) = true ∧
    raised { State.reset with pc := 0x0FFF#16, mem := memWrite [] 0xFFF 0x6A#8 } = [.fetchOverrun 0x0FFF#16] := by decide +kernel

/-- T-STEP-8: an odd PC is legal. -/
theorem test_odd_pc : gives (State.withFetchWord { State.reset with pc := 0x0201#16 } 16 0x6A55)
    (fun t => t.readV 0xA#4 == 0x55#8 && t.pc == 0x0203#16) = true := by decide +kernel

/-- T-STEP-10, T-STEP-11: a reserved word advances PC, counts and ticks. -/
theorem test_reserved_step : gives { State.reset with dt := 0x03#8, sc := 1 }
    (fun t => t.pc == 0x0202#16 && t.dt == 0x02#8 && t.sc == 2) = true ∧
    raised State.reset = [.reservedOpcode 0x0000#16] := by decide +kernel

/-! ## Canonical memory -/

/-- Writing what an unlisted address reads as removes its cell. -/
theorem test_memory_canonical : memWrite (memWrite [] 0x300 0x12#8) 0x300 0x00#8 = [] ∧ memWrite [] 0x000 0xF0#8 = [] ∧
    Memory.wf [(0x300, 0x00#8)] = false ∧ Memory.wf [(0x301, 0x01#8), (0x300, 0x01#8)] = false := by decide +kernel

/-! ## Witnesses: states and operands that meet the hypotheses of the obligations -/

/-- A state at both bounds of the invariant: PC at 0x10FE, return addresses 0x0002 and 0x1001, one cell of memory listed. -/
def edge : State :=
  { State.reset with pc := 0x10FE#16, stack := [0x0002#16, 0x1001#16], mem := [(0x300, 0x01#8)], running := true }

theorem edge_inv : Invariant edge := by
  refine ⟨by decide +kernel, fun a ha => ?_, by decide +kernel⟩
  obtain rfl | rfl : a = 0x0002#16 ∨ a = 0x1001#16 := by simpa [edge] using ha
  · decide
  · decide

theorem reset_inv : Invariant State.reset := ⟨by decide +kernel, nofun, rfl⟩

theorem witness_StepKeepsTheInvariant : Invariant edge ∧ ∃ t, step edge = .next t := ⟨edge_inv, _, rfl⟩

/-- A step that executes an instruction, from the last address below the bound. -/
theorem witness_StepKeepsTheInvariant_executing :
    Invariant (State.withFetchWord { State.reset with pc := 0x0FFE#16 } 16 0x2300) ∧
    ∃ t, step (State.withFetchWord { State.reset with pc := 0x0FFE#16 } 16 0x2300) = .next t ∧ t.stack = [0x1000#16] := by
  refine ⟨⟨by decide +kernel, nofun, by decide +kernel⟩, _, rfl, ?_⟩
  decide +kernel

theorem witness_HostMovesKeepTheInvariant :
    Invariant State.reset ∧ (HostMove.load [0x12#8, 0x00#8]).allowed State.reset = true ∧ HostMove.reset.allowed State.reset = true ∧
    HostMove.start.allowed State.reset = true ∧ (HostMove.setKeys 0xFFFF#16).allowed State.reset = true ∧
    HostMove.clearDraw.allowed State.reset = true :=
  ⟨reset_inv, by decide, rfl, rfl, rfl, rfl⟩

/-- Reset, load, start and one step of CALL are reachable. -/
theorem witness_ReachablePcNeverLeavesItsRange : ∃ s, Reachable s ∧ s.stack = [0x0202#16] ∧ s.pc = 0xABC#16 :=
  ⟨_, .step (.host .start (.host (.load [0x2A#8, 0xBC#8]) (.reset (s := State.reset) rfl) (by decide)) rfl) rfl, by decide +kernel, by decide +kernel⟩

theorem witness_InstructionsChangeOnlyTheirWriteSet :
    (∃ t, exec (.stRegs 0x2#4) edge = .next t) ∧ (∃ t, exec .ret edge = .next t) ∧ ∃ t, exec .ret State.reset = .next t :=
  ⟨⟨_, rfl⟩, ⟨_, rfl⟩, ⟨_, rfl⟩⟩

theorem witness_HostMovesWriteOnlyTheirField : imageFits [0x12#8] = true ∧ 0 < [0x12#8].length ∧ 0x1FF < 4096 ∧ 0x201 < 4096 := by
  decide

/-- The launch state of an image meets the premises of R228. -/
theorem witness_LaunchPremisesLeaveOneState :
    imageFits [0x12#8] = true ∧ Launched [0x12#8] (launch [0x12#8]) := by
  refine ⟨rfl, ⟨rfl, by decide +kernel, fun k hk => ?_, fun a ha hb => ?_⟩, rfl, rfl⟩
  · obtain rfl : k = 0 := by simpa using hk
    exact (by decide +kernel : memRead (launch [0x12#8]).mem 0x200 = 0x12#8)
  · have hne : ¬ a = 0x200 := by
      simp only [progBase, List.length_singleton] at hb
      omega
    show memLookup [(0x200, 0x12#8)] (a % memSize) = memLookup [] (a % memSize)
    simp [memLookup, Nat.mod_eq_of_lt ha, hne]

/-- The empty image, an image of one byte with its first and last addresses, and the longest image. -/
theorem witness_LaunchLoadsTheImageVerbatim :
    imageFits [] = true ∧ imageFits [0x12#8] = true ∧ 0 < [0x12#8].length ∧ 0x200 + [0x12#8].length ≤ 4095 ∧
    imageFits (List.replicate 0xE00 0x00#8) = true := by
  refine ⟨rfl, rfl, by decide, by decide, ?_⟩
  simp only [imageFits, List.length_replicate]
  decide

theorem witness_EncodeOfDecodeGivesTheWord : decodeWord 0x5127#16 = .ok (.seReg 0x1#4 0x2#4 0x7#4) := by decide

theorem witness_WordsSelectRowsByMaskAndMatch :
    decodeWord 0x8126#16 = .ok (.shr 0x1#4 0x2#4) ∧ 0x8126#16 &&& maskOf (.shr 0x1#4 0x0#4) = matchOf (.shr 0x1#4 0x0#4) := by
  decide

theorem witness_ReservedWordsAreTheFourClasses :
    decodeWord 0x0FFF#16 = .error (.reservedFamily0 0x0FFF#16) ∧ decodeWord 0x8FFF#16 = .error (.reservedFamily8 0x8FFF#16) ∧
    decodeWord 0xE000#16 = .error (.reservedFamilyE 0xE000#16) ∧ decodeWord 0xFFFF#16 = .error (.reservedFamilyF 0xFFFF#16) := by
  decide

/-- The last address whose step executes. -/
theorem witness_StepRunsTheDecodedInstruction : (0x0FFF#16).toNat < 0x1000 ∧
    decodeWord (wordOfBytes (memRead [(0xFFF, 0x6A#8)] 0xFFF) (memRead [(0xFFF, 0x6A#8)] 0x1000)) = .ok (.ldImm 0xA#4 0xF0#8) := by
  decide +kernel

theorem witness_StepOnReservedWordOnlyAdvances : State.reset.pc.toNat < 0x1000 ∧
    decodeWord (wordOfBytes (memRead State.reset.mem State.reset.pc.toNat) (memRead State.reset.mem (State.reset.pc.toNat + 1))) =
      .error (.reservedFamily0 0x0000#16) := by decide +kernel

/-- The first address whose step halts. -/
theorem witness_StepWithPcOutOfRangeHalts : 0x1000 ≤ (0x1000#16).toNat ∧ 0x1000 ≤ edge.pc.toNat := by decide

theorem witness_EveryStepCountsAndTicks :
    (∃ t, step State.reset = .next t) ∧ (∀ x, executed State.reset ≠ some (.ldDtVx x)) ∧
    (∃ t, step (start [] 0xF215) = .next t) ∧ executed (start [] 0xF215) = some (.ldDtVx 0x2#4) := by
  have h : executed State.reset = none := by decide +kernel
  exact ⟨⟨_, rfl⟩, fun x => by rw [h]; exact nofun, ⟨_, rfl⟩, by decide +kernel⟩

/-- One step over a reserved word, before which the host presses key 0 and clears draw, executes nothing. -/
theorem reserved_never (p : Instr → Prop) (s : State) (hm : s.mem = []) (hp : s.pc = 0x0200#16) :
    NeverExecutes p [[.setKeys 0x0001#16, .clearDraw]] s := by
  intro n hn u hu i hi
  obtain rfl : n = 0 := by simpa using hn
  cases hu
  have he : executed s = none := by
    rw [executed, hm, hp]
    decide +kernel
  exact nomatch he.symm.trans hi

theorem witness_TimerCadenceOverAnyRun :
    Schedule.quiet [[.setKeys 0x0001#16, .clearDraw]] = true ∧
    NeverExecutes (fun i => ∃ x, i = .ldDtVx x) [[.setKeys 0x0001#16, .clearDraw]] { State.reset with dt := 0x05#8, sc := 1 } ∧
    ∃ t, hostedRun [[.setKeys 0x0001#16, .clearDraw]] { State.reset with dt := 0x05#8, sc := 1 } = .next t ∧ t.dt = 0x04#8 :=
  ⟨rfl, reserved_never _ _ rfl rfl, _, rfl, by decide +kernel⟩

/-- The second schedule presses no key. -/
theorem witness_QuietHostActsThroughKeySkipsOnly :
    Schedule.quiet [[.setKeys 0x0001#16, .clearDraw]] = true ∧ Schedule.quiet [[]] = true ∧
    NeverExecutes (fun i => ∃ x, i = .skp x ∨ i = .sknp x) [[.setKeys 0x0001#16, .clearDraw]] State.reset ∧
    ∃ t, hostedRun [[.setKeys 0x0001#16, .clearDraw]] State.reset = .next t :=
  ⟨rfl, rfl, reserved_never _ _ rfl rfl, _, rfl⟩

theorem witness_StepIgnoresTheRunningFlag : ∃ t, step { State.reset with running := true } = .next t := ⟨_, rfl⟩

theorem witness_OnlyTheirInstructionsReadKeysAndRandom :
    (∀ x, executed State.reset ≠ some (.skp x) ∧ executed State.reset ≠ some (.sknp x)) ∧
    (∀ x kk, executed State.reset ≠ some (.rnd x kk)) ∧ ∃ t, step State.reset = .next t := by
  have h : executed State.reset = none := by decide +kernel
  exact ⟨fun x => by rw [h]; exact ⟨nofun, nofun⟩, fun x kk => by rw [h]; exact nofun, _, rfl⟩

/-- A step that draws and one that does not. -/
theorem witness_EveryDrawIsFresh :
    executed (start [] 0xC1FF) = some (.rnd 0x1#4 0xFF#8) ∧ (∃ t, step (start [] 0xC1FF) = .next t) ∧
    executed (start [] 0x00E0) = some .cls ∧ ∃ t, step (start [] 0x00E0) = .next t :=
  ⟨by decide +kernel, ⟨_, rfl⟩, by decide +kernel, _, rfl⟩

/-- A reset after a draw does not bring the drawn byte back (log 4). -/
theorem test_reset_keeps_the_draw : (HostMove.reset.apply { State.reset with rndIndex := 7, pc := 0x0300#16 }).rndIndex = 7 ∧
    (HostMove.reset.apply { State.reset with rndIndex := 7, pc := 0x0300#16 }).pc = 0x0200#16 := ⟨rfl, rfl⟩

/-- One step for each case: CLS, DRW, the halt, and RET on the empty stack. -/
theorem witness_CoreSideOfTheHostFlags :
    executed (start [] 0x00E0) = some .cls ∧ executed (start [] 0xD015) = some (.drw 0x0#4 0x1#4 0x5#4) ∧
    executed (start [] 0x00EE) = some .ret ∧ (start [] 0x00EE).stack = [] ∧ (∃ t, step (start [] 0x00E0) = .next t) ∧
    (∃ t, step edge = .next t ∧ t.running = false) :=
  ⟨by decide +kernel, by decide +kernel, by decide +kernel, by decide +kernel, ⟨_, rfl⟩, ⟨_, rfl, rfl⟩⟩

theorem witness_OnlyCallAndReturnTouchTheStack :
    executed (start [] 0x2ABC) = some (.call 0xABC#12) ∧ executed (start [] 0x00EE) = some .ret ∧
    executed (start [] 0x1ABC) = some (.jp 0xABC#12) ∧ (∃ t, step (start [] 0x2ABC) = .next t) :=
  ⟨by decide +kernel, by decide +kernel, by decide +kernel, ⟨_, rfl⟩⟩

theorem witness_ReturnPopsOrHalts : edge.stack = [0x0002#16] ++ [0x1001#16] ∧ State.reset.stack = [] := ⟨rfl, rfl⟩

/-- The least and the greatest sum that leave memory, and the greatest that does not. -/
theorem witness_JumpsWriteOnlyPc :
    0x1000 ≤ (0xFFF#12).toNat + ((start [(v0, 0x01#8)] 0).readV 0x0#4).toNat ∧
    0x1000 ≤ (0xFFF#12).toNat + ((start [(v0, 0xFF#8)] 0).readV 0x0#4).toNat ∧
    ¬ 0x1000 ≤ (0xFFF#12).toNat + ((start [(v0, 0x00#8)] 0).readV 0x0#4).toNat := by decide +kernel

theorem witness_ReturnUndoesCall : ∃ t, exec (.call 0xABC#12) edge = .next t ∧ edge.stack ++ [edge.pc] = t.stack := ⟨_, rfl, rfl⟩

/-- Both sides of each comparison, at its boundary. -/
theorem witness_skips :
    (start [(0xA#4, 0x42#8)] 0).readV 0xA#4 = 0x42#8 ∧ (start [(0xA#4, 0x43#8)] 0).readV 0xA#4 ≠ 0x42#8 ∧
    (start [(0x1#4, 0x07#8)] 0).readV 0x1#4 ≠ (start [(0x1#4, 0x07#8)] 0).readV 0x2#4 ∧
    (0x8000#16).getLsbD ((start [(0x3#4, 0xFF#8)] 0).readV 0x3#4).toNat = false ∧
    (0x8000#16).getLsbD (((start [(0x3#4, 0xFF#8)] 0).readV 0x3#4).toNat % 16) = true := by decide +kernel

/-- The flag-writing instructions: X other than VF and X = VF; sums 255 and 256; equal and unequal operands. -/
theorem witness_flags :
    (0x1#4 : RegIx) ≠ vf ∧ (0xF#4 : RegIx) = vf ∧
    255 < ((start [(0x0#4, 0xFF#8), (0x1#4, 0x01#8)] 0).readV 0x0#4).toNat + ((start [(0x0#4, 0xFF#8), (0x1#4, 0x01#8)] 0).readV 0x1#4).toNat ∧
    ¬ 255 < ((start [(0x0#4, 0xFE#8), (0x1#4, 0x01#8)] 0).readV 0x0#4).toNat + ((start [(0x0#4, 0xFE#8), (0x1#4, 0x01#8)] 0).readV 0x1#4).toNat ∧
    ((start [(0x1#4, 0x0A#8)] 0).readV 0x2#4).toNat < ((start [(0x1#4, 0x0A#8)] 0).readV 0x1#4).toNat := by decide +kernel

theorem witness_RegistersAreStored : (0xF#4 : RegIx).toNat ≤ (0xF#4 : RegIx).toNat ∧ (0x0#4 : RegIx).toNat ≤ (0x0#4 : RegIx).toNat := by
  decide

/-- The store of FX55 and of FX33 at the top of memory, and the load after each. -/
theorem witness_StoreThenLoadRestores :
    ∃ t w, exec (.stRegs 0x1#4) { State.reset with i := 0x0FFF#16 } = .next t ∧ t.i = 0x0FFF#16 ∧
      exec (.ldRegs 0x1#4) t = .next w ∧ ∃ t' w', exec (.ldB 0x1#4) { State.reset with i := 0x0FFE#16 } = .next t' ∧
      t'.i = 0x0FFE#16 ∧ exec (.ldRegs 0x2#4) t' = .next w' := ⟨_, _, rfl, rfl, rfl, _, _, rfl, rfl, rfl⟩

/-- FX55 and FX33 over the next instruction, each byte at the PC and at the address after it. -/
theorem witness_FetchReadsWhatWasStored :
    (∃ t, exec (.stRegs 0x1#4) { State.reset with i := 0x0202#16 } = .next t) ∧
    (∃ t, exec (.ldB 0x1#4) { State.reset with i := 0x0202#16 } = .next t) ∧
    (0x1#4 : RegIx).toNat ≤ (0x1#4 : RegIx).toNat ∧
    (0x0202#16).toNat % 4096 = State.dataAddr { State.reset with i := 0x0202#16 } 0 % 4096 ∧
    ((0x0203#16).toNat + 1) % 4096 = State.dataAddr { State.reset with i := 0x0202#16 } 2 % 4096 :=
  ⟨⟨_, rfl⟩, ⟨_, rfl⟩, by decide, by decide, by decide⟩

/-- Glyph 0 at the origin covers column 0 and 3 of row 1 and not column 1. -/
theorem witness_DrawXorsTheSpritePixelwise :
    SpriteCovers State.reset 0 0 5 0 1 ∧ SpriteCovers State.reset 0 0 5 3 1 ∧ ¬ SpriteCovers State.reset 0 0 1 0 1 ∧
    readPixel (flipPixel clearFramebuffer 0 1) 0 1 = true ∧ readPixel clearFramebuffer 0 1 = false := by
  refine ⟨⟨1, 0, by decide, by decide, by decide +kernel, rfl, rfl⟩, ⟨1, 3, by decide, by decide, by decide +kernel, rfl, rfl⟩, ?_, by decide +kernel, by decide +kernel⟩
  rintro ⟨i, j, hi, _, _, _, hy⟩
  omega

/-- T-DRW-2: the state after the first draw meets every hypothesis of the second. -/
theorem witness_DrawingTwiceRestores :
    ∃ t w, exec (.drw 0x0#4 0x1#4 0x5#4) State.reset = .next t ∧ t.mem = State.reset.mem ∧ t.i = State.reset.i ∧
      t.readV 0x0#4 = State.reset.readV 0x0#4 ∧ t.readV 0x1#4 = State.reset.readV 0x1#4 ∧
      exec (.drw 0x0#4 0x1#4 0x5#4) t = .next w := ⟨_, _, rfl, rfl, rfl, rfl, rfl, rfl⟩

/-- T-DRW-12: the edge of the domain, Vx = 120 and Vy + N = 64. T-DRW-13: one column past it. -/
theorem witness_DrawDomainNeedsAtMostOneWrap :
    ((start [(0x0#4, 0x78#8), (0x1#4, 0x31#8)] 0).readV 0x0#4).toNat ≤ 120 ∧
    ((start [(0x0#4, 0x78#8), (0x1#4, 0x31#8)] 0).readV 0x1#4).toNat + (0xF#4 : Nibble).toNat ≤ 64 ∧
    conditionsOf (.drw 0x0#4 0x1#4 0x1#4) (State.setMem { start [(0x0#4, 0x79#8)] 0 with i := 0x0300#16 } [(0x300, 0x01#8)]) =
      [.drawWrapRange 128 0] := by decide +kernel

theorem witness_TimerReadAndWrite :
    executed (start [] 0xF107) = some (.ldVxDt 0x1#4) ∧ executed (start [] 0xF015) = some (.ldDtVx 0x0#4) ∧
    (∃ t, step (start [] 0xF015) = .next t ∧ NeverExecutes (fun i => ∃ y, i = .ldDtVx y) [] t ∧ hostedRun [] t = .next t) ∧
    ∃ s, NeverExecutes (fun i => ∃ y, i = .ldDtVx y) [[.setKeys 0x0001#16, .clearDraw]] s :=
  ⟨by decide +kernel, by decide +kernel, ⟨_, rfl, nofun, rfl⟩, State.reset, reserved_never _ _ rfl rfl⟩

/-- FX15 at 0x200 and FX07 at 0x202. -/
theorem witness_TimerReadBackDependsOnParity :
    ∃ s t u, executed s = some (.ldDtVx 0x0#4) ∧ step s = .next t ∧ executed t = some (.ldVxDt 0x1#4) ∧ step t = .next u :=
  ⟨launch [0xF0#8, 0x15#8, 0xF1#8, 0x07#8], _, _, by decide +kernel, rfl, by decide +kernel, rfl⟩

theorem witness_PlaceholdersChangeNothing :
    executed (start [] 0xF30A) = some (.ldVxK 0x3#4) ∧ executed (start [] 0xF218) = some (.ldStVx 0x2#4) := by decide +kernel

/-- Each condition is met somewhere (T-FLOW-9, T-RES-2, T-SKIP-15, T-IDX-20), and none beyond the bound. -/
theorem witness_ConditionsOfAStep :
    0x1000 ≤ edge.pc.toNat ∧ raised edge = [] ∧ raised (start [] 0x00EE) = [.stackUnderflow 0x0200#16] ∧
    raised (start [] 0x0123) = [.reservedOpcode 0x0123#16] ∧
    raised (start [(0x3#4, 0x1A#8)] 0xE39E) = [.keyIndexRange 0x1A#8] ∧
    raised { start [] 0xF055 with i := 0x1003#16 } = [.memAddressOverflow 0x1003] := by decide +kernel

/-- The dirty end: a started machine whose first word is RET ends after one step. -/
theorem witness_RunsEndInTwoWays_ret :
    ∃ t, Started (launch [0x00#8, 0xEE#8]) ∧ EndsAfter [[.clearDraw]] (launch [0x00#8, 0xEE#8]) t :=
  ⟨_, rfl, rfl, nofun, rfl, rfl, fun n h0 h1 => by
    simp only [List.length_singleton] at h1
    omega⟩

/-- The clean end: a started machine with PC at the bound. -/
theorem witness_RunsEndInTwoWays_clean :
    ∃ t, Started { State.reset with pc := 0x1000#16, running := true } ∧
      EndsClean [[]] { State.reset with pc := 0x1000#16, running := true } t :=
  ⟨_, rfl, ⟨rfl, nofun, rfl, rfl, fun n h0 h1 => by
    simp only [List.length_singleton] at h1
    omega⟩, _, rfl, by decide⟩

/-- R234: a key the host presses during a run reaches the EX9E of the next step. -/
theorem test_key_pressed_mid_run :
    (∃ t, hostedRun [[], [.setKeys 0x0001#16]] (launch [0x12#8, 0x02#8, 0xE0#8, 0x9E#8]) = .next t ∧ t.pc = 0x0206#16) ∧
    ∃ t, hostedRun [[], []] (launch [0x12#8, 0x02#8, 0xE0#8, 0x9E#8]) = .next t ∧ t.pc = 0x0204#16 :=
  ⟨⟨_, rfl, by decide +kernel⟩, _, rfl, by decide +kernel⟩

end Sys2Proof.Tests
end

section
/-! PROOFS. Frame rules: one per state operation, each saying which fields of `Touch` cover what the operation writes. They compose
by `Unchanged.trans`, so the frame of an instruction is the chain of the operations of its meaning. -/

namespace Sys2Proof.Safety

open Sys2Proof.Machine

variable {f : Touch} {s t u : State}

/-! ## Composition -/

theorem Unchanged.refl (f : Touch) (s : State) : Unchanged f s s := by simp [Unchanged]

/-- Every component of the frame is an equality under a condition on `f` alone, so two frames with the same `f` compose. -/
theorem Unchanged.trans (hst : Unchanged f s t) (htu : Unchanged f t u) : Unchanged f s u := by
  obtain ⟨regs, mem, i, pc, stack, dt, fb, draw, running, rnd, keys, sc⟩ := hst
  obtain ⟨regs', mem', i', pc', stack', dt', fb', draw', running', rnd', keys', sc'⟩ := htu
  exact ⟨fun r h => (regs' r h).trans (regs r h), fun a h => (mem' a h).trans (mem a h), fun h => (i' h).trans (i h),
    fun h => (pc' h).trans (pc h), fun h => (stack' h).trans (stack h), fun h => (dt' h).trans (dt h),
    fun h => (fb' h).trans (fb h), fun h => (draw' h).trans (draw h), fun h => (running' h).trans (running h),
    fun h => (rnd' h).trans (rnd h), keys'.trans keys, sc'.trans sc⟩

/-! ## Registers -/

/-- A state that differs in the register file alone meets every frame that covers the registers that differ. -/
theorem Unchanged.of_regs (hs : t = { s with v := t.v }) (hr : ∀ r, r ∉ f.regs → t.readV r = s.readV r) :
    Unchanged f s t := by
  refine ⟨hr, ?_⟩
  rw [hs]
  simp

theorem Unchanged.writeV {x : RegIx} (hx : x ∈ f.regs) (s : State) (b : Byte) : Unchanged f s (s.writeV x b) :=
  .of_regs rfl fun _ hr => State.readV_writeV_ne s b fun e => hr (e ▸ hx)

theorem Unchanged.setFlag (hf : vf ∈ f.regs) (s : State) (c : Bool) : Unchanged f s (s.setFlag c) :=
  .writeV hf s (flagByte c)

/-- FX65 writes V0 to VX and nothing else (R166). -/
theorem Unchanged.loadRegsUpTo {x : RegIx} (hx : f.regs = regsTo x) (s : State) : Unchanged f s (s.loadRegsUpTo x) := by
  obtain ⟨hread, hrest⟩ := State.loadRegsUpTo_spec s x
  refine .of_regs hrest fun r hr => ?_
  rw [hx, mem_regsTo] at hr
  rw [hread, if_neg hr]

/-! ## Memory -/

/-- A run stored at I changes at most its own cells, modulo 4096 (R56). -/
theorem Unchanged.storeAtI (s : State) (ws : List Byte) (hc : f.cells = cellsFrom s ws.length) :
    Unchanged f s (s.setMem (memWriteList s.mem (s.dataAddr 0) ws)) := by
  have hmem (a) (ha : a % memSize ∉ f.cells) : memRead (memWriteList s.mem (s.dataAddr 0) ws) a = memRead s.mem a :=
    memRead_outside_cells s ws a (hc ▸ ha)
  simpa [Unchanged] using hmem

/-! ## The other fields -/

theorem Unchanged.setI (hi : f.i = true) (s : State) (a : Addr) : Unchanged f s (s.setI a) := by simp [Unchanged, hi]

theorem Unchanged.setDt (hd : f.dt = true) (s : State) (b : Byte) : Unchanged f s (s.setDt b) := by simp [Unchanged, hd]

theorem Unchanged.jump (hp : f.pc = true) (s : State) (a : Addr) : Unchanged f s (s.jump a) := by simp [Unchanged, hp]

theorem Unchanged.skipIf (hp : f.pc = true) (s : State) (c : Bool) : Unchanged f s (s.skipIf c) := by simp [Unchanged, hp]

theorem Unchanged.setStack (hk : f.stack = true) (s : State) (l : List Addr) : Unchanged f s (s.setStack l) := by
  simp [Unchanged, hk]

theorem Unchanged.push (hk : f.stack = true) (s : State) (a : Addr) : Unchanged f s (s.push a) :=
  .setStack hk s (s.stack ++ [a])

theorem Unchanged.halt (hr : f.running = true) (s : State) : Unchanged f s s.halt := by simp [Unchanged, hr]

theorem Unchanged.rndTaken (hr : f.rndIndex = true) (s : State) : Unchanged f s s.rndTaken := by simp [Unchanged, hr]

theorem Unchanged.showFrame (hf : f.fb = true) (hd : f.draw = true) (s : State) (fb : Framebuffer) :
    Unchanged f s (s.showFrame fb) := by
  simp [Unchanged, hf, hd]

/-! ## The instructions -/

/-- RET in both its forms: the pop and the halt on the empty stack (R121, R192). -/
theorem execRet_unchanged (h : execRet s = .next t) : Unchanged (touches .ret s) s t := by
  rcases execRet_forms s with ⟨older, a, -, hpop⟩ | ⟨-, hhalt⟩
  · cases hpop.symm.trans h
    exact (Unchanged.setStack rfl s older).trans (.jump rfl _ a)
  · cases hhalt.symm.trans h
    exact .halt rfl s

/-- Settles O6: in each case the frame rules of the operations its meaning is made of, in their order. -/
theorem instructionsChangeOnlyTheirWriteSet : Obligations.InstructionsChangeOnlyTheirWriteSet := by
  intro i s t h
  cases i with
  | cls =>
    cases h
    exact .showFrame rfl rfl s _
  | ret => exact execRet_unchanged h
  | jp | jpV0 =>
    cases h
    exact .jump rfl s _
  | call =>
    cases h
    exact (Unchanged.push rfl s s.pc).trans (.jump rfl _ _)
  | seImm | sneImm | seReg | sneReg | skp | sknp =>
    cases h
    exact .skipIf rfl s _
  | ldImm | addImm | ldReg | orReg | andReg | xorReg | ldVxDt =>
    cases h
    exact .writeV (by simp [touches]) s _
  | addReg | shl =>
    cases h
    exact (Unchanged.writeV (by simp [touches]) s _).trans (.setFlag (by simp [touches]) _ _)
  | sub | shr | subn =>
    cases h
    exact (Unchanged.setFlag (by simp [touches]) s _).trans (.writeV (by simp [touches]) _ _)
  | ldI | addI | ldF =>
    cases h
    exact .setI rfl s _
  | rnd =>
    cases h
    exact (Unchanged.rndTaken rfl s).trans (.writeV (by simp [touches]) _ _)
  | drw =>
    cases h
    exact (Unchanged.showFrame rfl rfl s _).trans (.setFlag (by simp [touches]) _ _)
  | ldVxK | ldStVx =>
    cases h
    exact .refl _ s
  | ldDtVx =>
    cases h
    exact .setDt rfl s _
  | ldB =>
    cases h
    exact .storeAtI s _ rfl
  | stRegs x =>
    cases h
    exact .storeAtI s (s.regsUpTo x) (by rw [State.regsUpTo_length]; rfl)
  | ldRegs =>
    cases h
    exact .loadRegsUpTo rfl s

end Sys2Proof.Safety
end

section
/-! PROOFS. What one instruction and one step can do to PC, the stack, memory, the flags of the host and the keys. Where an
instruction's write set leaves a field out, the frame O6 gives says so; only the instructions that write the field are computed. -/

namespace Sys2Proof.Safety

open Sys2Proof.Machine

variable {f : Touch} {i : Instr} {s t : State}

/-! ## The components of a frame -/

theorem Unchanged.pc_eq (h : Unchanged f s t) (hf : f.pc = false) : t.pc = s.pc := by
  obtain ⟨-, -, -, hpc, -⟩ := h
  exact hpc hf

theorem Unchanged.stack_eq (h : Unchanged f s t) (hf : f.stack = false) : t.stack = s.stack := by
  obtain ⟨-, -, -, -, hstack, -⟩ := h
  exact hstack hf

theorem Unchanged.draw_eq (h : Unchanged f s t) (hf : f.draw = false) : t.draw = s.draw := by
  obtain ⟨-, -, -, -, -, -, -, hdraw, -⟩ := h
  exact hdraw hf

theorem Unchanged.running_eq (h : Unchanged f s t) (hf : f.running = false) : t.running = s.running := by
  obtain ⟨-, -, -, -, -, -, -, -, hrunning, -⟩ := h
  exact hrunning hf

theorem Unchanged.keys_eq (h : Unchanged f s t) : t.keys = s.keys := by
  obtain ⟨-, -, -, -, -, -, -, -, -, -, hkeys, -⟩ := h
  exact hkeys

/-- The frame of an instruction (R39), as O6 states it. -/
theorem exec_unchanged (h : exec i s = .next t) : Unchanged (touches i s) s t :=
  instructionsChangeOnlyTheirWriteSet i s t h

/-! ## One instruction -/

/-- `execRet_forms` read backwards: where the state after a RET comes from. -/
theorem execRet_cases (h : execRet s = .next t) :
    (∃ older a, s.stack = older ++ [a] ∧ t = (s.setStack older).jump a) ∨ (s.stack = [] ∧ t = s.halt) := by
  rcases execRet_forms s with ⟨older, a, hs, hpop⟩ | ⟨hs, hhalt⟩
  · cases hpop.symm.trans h
    exact .inl ⟨older, a, hs, rfl⟩
  · cases hhalt.symm.trans h
    exact .inr ⟨hs, rfl⟩

/-- The stack after an instruction, in its three cases (R125). -/
theorem exec_stack (h : exec i s = .next t) :
    t.stack = match i with
      | .call _ => s.stack ++ [s.pc]
      | .ret => s.stack.dropLast
      | _ => s.stack := by
  cases i with
  | call =>
    cases h
    rfl
  | ret =>
    rcases execRet_cases h with ⟨older, a, hs, rfl⟩ | ⟨hs, rfl⟩
    · simp [hs]
    · simp [hs]
  | _ => exact (exec_unchanged h).stack_eq rfl

/-- Memory after an instruction is memory before it, or memory with a run of bytes stored (R53). -/
theorem exec_mem (h : exec i s = .next t) : t.mem = s.mem ∨ ∃ a ws, t.mem = memWriteList s.mem a ws := by
  cases i with
  | ldB | stRegs =>
    cases h
    exact .inr ⟨_, _, rfl⟩
  | ret =>
    rcases execRet_cases h with ⟨older, a, -, rfl⟩ | ⟨-, rfl⟩
    · exact .inl rfl
    · exact .inl rfl
  | seImm | sneImm | seReg | sneReg | skp | sknp =>
    cases h
    exact .inl (State.skipIf_mem s _)
  | ldRegs x =>
    cases h
    obtain ⟨-, hrest⟩ := State.loadRegsUpTo_spec s x
    exact .inl (by rw [hrest])
  | _ =>
    cases h
    exact .inl rfl

/-- An instruction sets the draw flag exactly if it is 00E0 or DXYN, and clears it never (R32, R170, R172). -/
theorem exec_draw (h : exec i s = .next t) :
    t.draw = true ↔ s.draw = true ∨ i = .cls ∨ ∃ x y n, i = .drw x y n := by
  cases i with
  | cls | drw =>
    cases h
    simp
  | _ => simp [(exec_unchanged h).draw_eq rfl]

/-- An instruction clears running exactly if it is 00EE on the empty stack, and sets it never (R33, R192; D5, log 7). -/
theorem exec_running (h : exec i s = .next t) :
    t.running = true ↔ s.running = true ∧ ¬ (i = .ret ∧ s.stack = []) := by
  cases i with
  | ret =>
    rcases execRet_cases h with ⟨older, a, hs, rfl⟩ | ⟨hs, rfl⟩
    · simp [hs]
    · simp [hs]
  | _ => simp [(exec_unchanged h).running_eq rfl]

/-! ## One step -/

/-- A step that executes nothing is the halt or the passing over of a reserved word (R89, R102). -/
theorem step_of_not_executed (h : executed s = none) :
    step s = .next (if pcOutOfRange s then (tick s).halt else preAdvance (tick s)) := by
  rcases step_forms s with ⟨hp, -, hs⟩ | ⟨i, -, -, he, -⟩ | ⟨-, hp, -, -, hs⟩
  · rw [hs, if_pos hp]
  · exact nomatch h.symm.trans he
  · rw [hs, hp, if_neg Bool.false_ne_true]

/-- `step_forms` read backwards: where the state after a step comes from. -/
theorem step_cases (h : step s = .next t) :
    (0x1000 ≤ s.pc.toNat ∧ executed s = none ∧ t = (tick s).halt) ∨
    (∃ i, s.pc.toNat < 0x1000 ∧ executed s = some i ∧ exec i (preAdvance (tick s)) = .next t) ∨
    (s.pc.toNat < 0x1000 ∧ executed s = none ∧ t = preAdvance (tick s)) := by
  rcases step_forms s with ⟨hp, he, hs⟩ | ⟨i, hp, -, he, hs⟩ | ⟨-, hp, -, he, hs⟩
  · cases hs.symm.trans h
    exact .inl ⟨(pcOutOfRange_eq_true s).mp hp, he, rfl⟩
  · exact .inr (.inl ⟨i, (pcOutOfRange_eq_false s).mp hp, he, hs.symm.trans h⟩)
  · cases hs.symm.trans h
    exact .inr (.inr ⟨(pcOutOfRange_eq_false s).mp hp, he, rfl⟩)

end Sys2Proof.Safety
end

section
/-! PROOFS. The invariant of R25 and of memory's canonical form: at reset, over a step, over a host move, and so everywhere. -/

namespace Sys2Proof.Safety

open Sys2Proof.Machine

variable {i : Instr} {s t : State}

/-! ## A step -/

/-- The pre-advance from below 0x1000 ends in the range of the return addresses (R104, R121). -/
theorem preAdvance_pc_bounds (h : s.pc.toNat < 0x1000) :
    0x0002 ≤ (preAdvance s).pc.toNat ∧ (preAdvance s).pc.toNat ≤ 0x1001 := by
  rw [preAdvance_pc, BitVec.toNat_add, BitVec.toNat_ofNat]
  omega

/-- The target of BNNN is at most 0x0FFF + 0xFF: the 16-bit sum does not wrap (R124). -/
theorem zextNNN_add_zextByte_le (nnn : Addr12) (b : Byte) : (zextNNN nnn + zextByte b).toNat ≤ 0x10FE := by
  have hnnn := nnn.isLt
  have hb := b.isLt
  rw [BitVec.toNat_add, zextNNN_toNat, zextByte_toNat]
  omega

theorem zextNNN_le (nnn : Addr12) : (zextNNN nnn).toNat ≤ 0x0FFF := by
  rw [zextNNN_toNat]
  exact Nat.le_of_lt_succ nnn.isLt

/-- A skip moves PC on by at most 2 (R130). -/
theorem skipIf_pc_le (h : s.pc.toNat ≤ 0x1001) (c : Bool) : (s.skipIf c).pc.toNat ≤ 0x1003 := by
  rw [State.skipIf_pc]
  split
  · rw [BitVec.toNat_add, BitVec.toNat_ofNat]
    omega
  · omega

/-- The bound of R25 on PC, over the five ways an instruction leaves it: written by a jump, a call, BNNN, a return or a skip; every
other instruction leaves the PC of the pre-advance. -/
theorem exec_pc_le (h : exec i s = .next t) (hpc : s.pc.toNat ≤ 0x1001) (hstack : ∀ a ∈ s.stack, a.toNat ≤ 0x1001) :
    t.pc.toNat ≤ 0x10FE := by
  cases i with
  | jp nnn | call nnn =>
    cases h
    exact (zextNNN_le nnn).trans (by decide)
  | jpV0 nnn =>
    cases h
    exact zextNNN_add_zextByte_le nnn _
  | ret =>
    rcases execRet_cases h with ⟨older, a, hs, rfl⟩ | ⟨-, rfl⟩
    · exact (hstack a (by simp [hs])).trans (by decide)
    · exact hpc.trans (by decide)
  | seImm | sneImm | seReg | sneReg | skp | sknp =>
    cases h
    exact (skipIf_pc_le hpc _).trans (by decide)
  | _ =>
    rw [(exec_unchanged h).pc_eq rfl]
    exact hpc.trans (by decide)

/-- Every return address after an instruction was one before it, or is the PC that a CALL pushed. -/
theorem mem_stack_of_exec (h : exec i s = .next t) {a : Addr} (ha : a ∈ t.stack) : a ∈ s.stack ∨ a = s.pc := by
  rw [exec_stack h] at ha
  split at ha
  · simpa using ha
  · exact .inl (List.mem_of_mem_dropLast ha)
  · exact .inl ha

theorem exec_mem_wf (h : exec i s = .next t) (hm : s.mem.wf = true) : t.mem.wf = true := by
  rcases exec_mem h with he | ⟨a, ws, he⟩
  · rwa [he]
  · rw [he]
    exact memWriteList_wf hm a ws

/-- An instruction begun where the pre-advance leaves PC, in 0x0002 to 0x1001, ends in the invariant. -/
theorem exec_invariant (h : exec i s = .next t) (hinv : Invariant s) (hpc : 0x0002 ≤ s.pc.toNat ∧ s.pc.toNat ≤ 0x1001) :
    Invariant t := by
  obtain ⟨-, hstack, hmem⟩ := hinv
  refine ⟨exec_pc_le h hpc.2 fun a ha => (hstack a ha).2, fun a ha => ?_, exec_mem_wf h hmem⟩
  rcases mem_stack_of_exec h ha with hold | rfl
  · exact hstack a hold
  · exact hpc

/-- Settles O3: the halt leaves PC, stack and memory alone; otherwise PC was below 0x1000, so the pre-advance leaves it in 0x0002 to
0x1001, from where every instruction ends in the invariant. -/
theorem stepKeepsTheInvariant : Obligations.StepKeepsTheInvariant := by
  intro s t hinv h
  have ⟨_, hstack, hmem⟩ := hinv
  rcases step_cases h with ⟨-, -, rfl⟩ | ⟨i, hlt, -, hexec⟩ | ⟨hlt, -, rfl⟩
  · exact hinv
  · have hadv := preAdvance_pc_bounds (s := tick s) hlt
    exact exec_invariant hexec ⟨hadv.2.trans (by decide), hstack, hmem⟩ hadv
  · exact ⟨(preAdvance_pc_bounds (s := tick s) hlt).2.trans (by decide), hstack, hmem⟩

/-! ## Reset, host moves and reachable states -/

/-- The reset state meets the invariant, whichever free random byte comes next. -/
theorem reset_invariant (n : Nat) : Invariant { State.reset with rndIndex := n } :=
  ⟨(by decide : resetPc.toNat ≤ 0x10FE), nofun, reset_mem_wf⟩

/-- Settles O2: the case of draw index 0. -/
theorem resetMeetsTheInvariant : Obligations.ResetMeetsTheInvariant := reset_invariant 0

/-- Settles O4: reset constructs the state anew, a load writes memory alone, and the other moves write no field the invariant
reads. -/
theorem hostMovesKeepTheInvariant : Obligations.HostMovesKeepTheInvariant := by
  intro m s hinv _
  cases m with
  | reset => exact reset_invariant s.rndIndex
  | load img =>
    obtain ⟨hpc, hstack, hmem⟩ := hinv
    exact ⟨hpc, hstack, memWriteList_wf hmem progBase img⟩
  | start | setKeys | clearDraw => exact hinv

/-- The invariant holds wherever steps and allowed host moves lead from reset. -/
theorem Reachable.invariant (h : Reachable s) : Invariant s := by
  induction h with
  | @reset s hreset =>
    rw [hreset]
    exact reset_invariant s.rndIndex
  | step _ hstep ih => exact stepKeepsTheInvariant _ _ ih hstep
  | host m _ hallowed ih => exact hostMovesKeepTheInvariant m _ ih hallowed

/-- Settles O5: two of the invariant's three parts. -/
theorem reachablePcNeverLeavesItsRange : Obligations.ReachablePcNeverLeavesItsRange := by
  intro s h
  obtain ⟨hpc, hstack, -⟩ := h.invariant
  exact ⟨hpc, hstack⟩

end Sys2Proof.Safety
end

section
/-! PROOFS. The two inputs of a step, the key matrix and the free random byte: an instruction that does not read one commutes with
putting another in its place. -/

namespace Sys2Proof.Safety

open Sys2Proof.Machine

/-- An input the host supplies (R213): the key matrix, or which free random byte comes next (log 4). -/
inductive Input where
  | keys (k : Keys)
  | random (n : Nat)

/-- The state with an input in place. -/
def Input.put : Input → State → State
  | .keys k, s => { s with keys := k }
  | .random n, s => { s with rndIndex := n }

/-- The instructions that read an input (R30, R107). -/
inductive Input.ReadBy : Input → Instr → Prop
  | skp {k x} : ReadBy (.keys k) (.skp x)
  | sknp {k x} : ReadBy (.keys k) (.sknp x)
  | rnd {n x kk} : ReadBy (.random n) (.rnd x kk)

namespace Input

variable {p : Input} {i : Instr} {s t : State}

/-! ## What inputs have nothing to do with -/

theorem executed_put (p : Input) (s : State) : executed (p.put s) = executed s := by cases p <;> rfl

theorem pcOutOfRange_put (p : Input) (s : State) : pcOutOfRange (p.put s) = pcOutOfRange s := by cases p <;> rfl

theorem preAdvance_tick_put (p : Input) (s : State) : preAdvance (tick (p.put s)) = p.put (preAdvance (tick s)) := by
  cases p <;> rfl

theorem halt_tick_put (p : Input) (s : State) : (tick (p.put s)).halt = p.put (tick s).halt := by cases p <;> rfl

theorem skipIf_put (p : Input) (s : State) (c : Bool) : (p.put s).skipIf c = p.put (s.skipIf c) := by
  cases p <;> cases c <;> rfl

theorem loadRegsUpTo_put (p : Input) (s : State) (x : RegIx) : (p.put s).loadRegsUpTo x = p.put (s.loadRegsUpTo x) :=
  List.foldl_hom p.put fun _ _ => by cases p <;> rfl

/-! ## Instructions and steps -/

/-- A 00EE reads the stack alone, in both its forms. -/
theorem execRet_put (p : Input) (h : execRet s = .next t) : execRet (p.put s) = .next (p.put t) := by
  have hstack : (p.put s).stack = s.stack := by cases p <;> rfl
  unfold execRet at h ⊢
  rw [hstack]
  generalize s.stack.getLast? = last at h ⊢
  cases last with
  | none | some =>
    cases h
    cases p <;> rfl

/-- An instruction that does not read an input gives, on any other input, the same state but for the input. -/
theorem exec_put (hr : ¬ p.ReadBy i) (h : exec i s = .next t) : exec i (p.put s) = .next (p.put t) := by
  cases i with
  | ret => exact execRet_put p h
  | seImm | sneImm | seReg | sneReg =>
    cases h
    cases p <;> exact congrArg _ (skipIf_put _ s _)
  | skp | sknp =>
    cases h
    cases p with
    | keys k => exact absurd (by constructor) hr
    | random n => exact congrArg _ (skipIf_put _ s _)
  | rnd =>
    cases h
    cases p with
    | keys k => rfl
    | random n => exact absurd .rnd hr
  | ldRegs x =>
    cases h
    exact congrArg _ (loadRegsUpTo_put p s x)
  | _ =>
    cases h
    cases p <;> rfl

/-- The halt and the reserved word read no input, and an executed instruction is not one that reads it. -/
theorem step_put (hr : ∀ i, executed s = some i → ¬ p.ReadBy i) (h : step s = .next t) :
    step (p.put s) = .next (p.put t) := by
  cases he : executed s with
  | none =>
    rw [step_of_not_executed he] at h
    cases h
    rw [step_of_not_executed ((executed_put p s).trans he), pcOutOfRange_put, halt_tick_put,
      preAdvance_tick_put, apply_ite p.put]
  | some i =>
    rw [step_of_executed he] at h
    rw [step_of_executed ((executed_put p s).trans he), preAdvance_tick_put]
    exact exec_put (hr i he) h

end Input

/-- Settles O20: `step_put` for each of the two inputs. -/
theorem onlyTheirInstructionsReadKeysAndRandom : Obligations.OnlyTheirInstructionsReadKeysAndRandom := by
  refine ⟨fun s t k hne h => ?_, fun s t n hne h => ?_⟩
  · refine Input.step_put (p := .keys k) (fun i hi hread => ?_) h
    cases hread with
    | skp => exact (hne _).1 hi
    | sknp => exact (hne _).2 hi
  · refine Input.step_put (p := .random n) (fun i hi hread => ?_) h
    cases hread with
    | rnd => exact hne _ _ hi

end Sys2Proof.Safety
end

section
/-! PROOFS. What a step does to the host's flags, the keys and the stack: the cases of `step_cases`, over what one instruction does. -/

namespace Sys2Proof.Safety

open Sys2Proof.Machine

/-- Settles O21: the tick and the pre-advance write none of the three fields, the halt clears running. -/
theorem coreSideOfTheHostFlags : Obligations.CoreSideOfTheHostFlags := by
  intro s t h
  rcases step_cases h with ⟨hge, he, rfl⟩ | ⟨i, hlt, he, hexec⟩ | ⟨hlt, he, rfl⟩
  · simp [he, Nat.not_lt.mpr hge]
  · refine ⟨(exec_unchanged hexec).keys_eq, ?_, ?_⟩
    · simpa [he] using exec_draw hexec
    · simpa [he, hlt] using exec_running hexec
  · simp [he, hlt]

/-- Settles O22: in an executing step the PC that 2NNN pushes is the pre-advanced one, the address after the 2NNN. -/
theorem onlyCallAndReturnTouchTheStack : Obligations.OnlyCallAndReturnTouchTheStack := by
  intro s t h
  rcases step_cases h with ⟨-, he, rfl⟩ | ⟨i, -, he, hexec⟩ | ⟨-, he, rfl⟩
  · rw [he]
    rfl
  · rw [he, exec_stack hexec]
    cases i <;> rfl
  · rw [he]
    rfl

end Sys2Proof.Safety
end

section
/-! PROOFS. The reset state, field by field (R37, R220). -/

namespace Sys2Proof.Machine

theorem font_length : Config.font.length = 80 := rfl

/-- Memory after reset lists no cell, so every byte reads as its default: the font, then zeros. -/
theorem memRead_reset {a : Nat} (h : a < memSize) : memRead State.reset.mem a = Config.font[a]?.getD 0x00#8 := by
  rw [← Nat.mod_eq_of_lt h]
  exact memRead_mod _ a

theorem readV_reset (r : RegIx) : State.reset.readV r = 0x00#8 := Vector.getElem_replicate _

/-- Settles O1: memory by `memRead_reset`, the registers and pixels by what a replicated vector holds, the rest by definition. -/
theorem resetPutsEveryFieldAtItsValue : Obligations.ResetPutsEveryFieldAtItsValue := by
  refine ⟨font_length, fun a h => memRead_reset (h.trans (by decide)), fun a hfont h => ?_, readV_reset,
    rfl, rfl, rfl, rfl, rfl, rfl, rfl, rfl, readPixel_clear⟩
  rw [memRead_reset h, List.getElem?_eq_none (font_length.le.trans hfont), Option.getD_none]

end Sys2Proof.Machine
end

section
/-! PROOFS. The loaded image (20_memory R60, 70_reset R223). -/

namespace Sys2Proof.Machine

variable {img : List Byte}

theorem imageFits_iff : imageFits img = true ↔ img.length ≤ 0xE00 := by simp [imageFits]

/-- The loader places every byte of an image that fits (R60, R206). -/
theorem memRead_load_at (s : State) (hfit : imageFits img = true) (k : Nat) (hk : k < img.length) :
    memRead ((HostMove.load img).apply s).mem (progBase + k) = img[k] :=
  memRead_memWriteList_at s.mem progBase img k hk ((imageFits_iff.mp hfit).trans (by decide))

/-- The loader leaves every byte outside the image. An image that fits ends below 0x1000, so none of its addresses wraps. -/
theorem memRead_load_ne (s : State) (hfit : imageFits img = true) {a : Nat} (ha : a < memSize)
    (hout : a < progBase ∨ progBase + img.length ≤ a) :
    memRead ((HostMove.load img).apply s).mem a = memRead s.mem a := by
  refine memRead_memWriteList_ne s.mem progBase a img fun k hk => ?_
  have hlen := imageFits_iff.mp hfit
  simp only [memSize, progBase] at ha hout ⊢
  omega

/-- Settles O7: memory by the two rules of the loader; a launch writes nothing else but running, so the other fields are those
of reset. -/
theorem launchLoadsTheImageVerbatim : Obligations.LaunchLoadsTheImageVerbatim := fun _ hfit =>
  ⟨memRead_load_at State.reset hfit, fun _ ha hout => memRead_load_ne State.reset hfit ha hout,
    rfl, rfl, rfl, rfl, readV_reset, rfl, rfl, rfl, rfl, readPixel_clear⟩

end Sys2Proof.Machine
end

section
/-! PROOFS. The bytes FX55 and FX33 store (20_memory R164, R165), and the fetch that reads them (R64). -/

namespace Sys2Proof.Machine

variable {s t u : State} {x r : RegIx}

/-! ## The digits of FX33 -/

theorem bcdHundreds_toNat (b : Byte) : (bcdHundreds b).toNat = b.toNat / 100 := by
  simp only [bcdHundreds, BitVec.toNat_ofNat]
  omega

theorem bcdTens_toNat (b : Byte) : (bcdTens b).toNat = b.toNat / 10 % 10 := by
  simp only [bcdTens, BitVec.toNat_ofNat]
  omega

theorem bcdOnes_toNat (b : Byte) : (bcdOnes b).toNat = b.toNat % 10 := by
  simp only [bcdOnes, BitVec.toNat_ofNat]
  omega

/-! ## What a store leaves at its addresses -/

/-- The k-th byte of a run stored at I, as a read at I + k finds it, wrapped or not (R56). -/
theorem memRead_storeAtI (s : State) (ws : List Byte) (k : Nat) (hk : k < ws.length) (hlen : ws.length ≤ memSize) :
    memRead (memWriteList s.mem (s.dataAddr 0) ws) (s.dataAddr k) = ws[k] :=
  memRead_memWriteList_at s.mem (s.dataAddr 0) ws k hk hlen

/-- FX55 stores register r at I + r (R165). -/
theorem memRead_of_exec_stRegs (h : exec (.stRegs x) s = .next t) (hr : r.toNat ≤ x.toNat) :
    memRead t.mem (s.dataAddr r.toNat) = s.readV r := by
  cases h
  have hlen := s.regsUpTo_length x
  have hread := memRead_storeAtI s (s.regsUpTo x) r.toNat (by omega) (by simp only [memSize]; omega)
  rw [s.regsUpTo_getElem, BitVec.ofNat_toNat, BitVec.setWidth_eq] at hread
  exact hread

/-- FX33 stores the digit of weight 10 ^ (2 - k) at I + k (R164). -/
theorem memRead_toNat_of_exec_ldB (h : exec (.ldB x) s = .next t) {k : Nat} (hk : k ≤ 2) :
    (memRead t.mem (s.dataAddr k)).toNat = (s.readV x).toNat / 10 ^ (2 - k) % 10 := by
  cases h
  have hread := memRead_storeAtI s [bcdHundreds (s.readV x), bcdTens (s.readV x), bcdOnes (s.readV x)] k
    (Nat.lt_succ_of_le hk) (by simp [memSize])
  refine (congrArg BitVec.toNat hread).trans ?_
  match k, hk with
  | 0, _ =>
    have hlt := (s.readV x).isLt
    simp only [List.getElem_cons_zero, bcdHundreds_toNat]
    omega
  | 1, _ => exact bcdTens_toNat _
  | 2, _ => simpa using bcdOnes_toNat (s.readV x)

/-! ## The fetch -/

/-- Two addresses that agree modulo 4096 name one byte (R56). -/
theorem memRead_congr (m : Memory) {a b : Nat} (h : a % memSize = b % memSize) : memRead m a = memRead m b := by
  rw [← memRead_mod, h, memRead_mod]

/-- The high byte of the fetched word is the byte at PC (R52, R103). -/
theorem hiByte_fetch_of_mod_eq {a : Nat} (h : u.pc.toNat % memSize = a % memSize) :
    hiByte (fetch u) = memRead u.mem a := by
  rw [fetch, hiByte_wordOfBytes, memRead_congr u.mem h]

/-- The low byte of the fetched word is the byte at PC + 1 (R52, R103; D7, log 5). -/
theorem loByte_fetch_of_mod_eq {a : Nat} (h : (u.pc.toNat + 1) % memSize = a % memSize) :
    loByte (fetch u) = memRead u.mem a := by
  rw [fetch, loByte_wordOfBytes, memRead_congr u.mem h]

/-- Settles O44: the fetch reads memory at its two addresses, and there stands what the store left. -/
theorem fetchReadsWhatWasStored : Obligations.FetchReadsWhatWasStored := by
  refine ⟨fun s t u x r h hr hkept => ?_, fun s t u x k h hk hkept => ?_⟩
  · have hbyte := hkept.trans (memRead_of_exec_stRegs h hr)
    exact ⟨fun ha => (hiByte_fetch_of_mod_eq ha).trans hbyte, fun ha => (loByte_fetch_of_mod_eq ha).trans hbyte⟩
  · have hdigit := memRead_toNat_of_exec_ldB h hk
    rw [← hkept] at hdigit
    exact ⟨fun ha => by rw [hiByte_fetch_of_mod_eq ha, hdigit], fun ha => by rw [loByte_fetch_of_mod_eq ha, hdigit]⟩

end Sys2Proof.Machine
end

section
/-! PROOFS. Encode and decode are inverse to one another (30_encoding R80 to R87). -/

namespace Sys2Proof

variable {op : Opcode} {i : Instr}

/-! ## Decoding a word that was encoded -/

/-- Settles O8: in each format the fields of the word are the operands, and the family with the selector picks the row. -/
theorem decodeOfEncodeGivesTheInstruction : Obligations.DecodeOfEncodeGivesTheInstruction := by
  intro i
  cases i with
  | cls | ret => rfl
  | jp | call | ldI | jpV0 => simp only [encode, decodeWord, familyOf_encodeNNN, nnnOf_encodeNNN]
  | seImm | sneImm | ldImm | addImm | rnd =>
    simp only [encode, decodeWord, familyOf_encodeXKK, xOf_encodeXKK, kkOf_encodeXKK]
  | seReg | sneReg | drw =>
    simp only [encode, decodeWord, familyOf_encodeXYN, xOf_encodeXYN, yOf_encodeXYN, nOf_encodeXYN]
  | ldReg | orReg | andReg | xorReg | addReg | sub | shr | subn | shl =>
    simp only [encode, decodeWord, familyOf_encodeXYN, decodeFamily8, xOf_encodeXYN, yOf_encodeXYN, nOf_encodeXYN]
  | skp | sknp =>
    simp only [encode, decodeWord, familyOf_encodeXKK, decodeFamilyE, xOf_encodeXKK, kkOf_encodeXKK]
  | ldVxDt | ldVxK | ldDtVx | ldStVx | addI | ldF | ldB | stRegs | ldRegs =>
    rw [encode, decodeWord_familyF _ (familyOf_encodeXKK _ _ _)]
    simp only [decodeFamilyF, xOf_encodeXKK, kkOf_encodeXKK]

/-- Settles O12: each word is the word of its instruction, so O8 decodes it. -/
theorem writtenOutWordsDecode : Obligations.WrittenOutWordsDecode :=
  have h := decodeOfEncodeGivesTheInstruction
  ⟨h .cls, h (.jp 0x234#12), h (.seImm 0xA#4 0x07#8), h (.addReg 0x1#4 0x2#4), h (.rnd 0x1#4 0x0F#8),
    h (.drw 0x0#4 0x1#4 0x5#4), h (.skp 0x3#4), h (.ldRegs 0x2#4)⟩

/-! ## The word of what a word decodes to -/

theorem encode_of_decodeFamily0 (h : decodeFamily0 op = .ok i) : encode i = op := by
  unfold decodeFamily0 at h
  split_ifs at h with hcls hret
  · cases h
    exact hcls.symm
  · cases h
    exact hret.symm

theorem encode_of_decodeFamily8 (hf : familyOf op = 0x8#4) (h : decodeFamily8 op = .ok i) : encode i = op := by
  unfold decodeFamily8 at h
  split at h
  case h_1 hn | h_2 hn | h_3 hn | h_4 hn | h_5 hn | h_6 hn | h_7 hn | h_8 hn | h_9 hn =>
    cases h
    rw [encode, ← hf, ← hn, encodeXYN_of_fields]
  case h_10 => cases h

theorem encode_of_decodeFamilyE (hf : familyOf op = 0xE#4) (h : decodeFamilyE op = .ok i) : encode i = op := by
  unfold decodeFamilyE at h
  split at h
  case h_1 hkk | h_2 hkk =>
    cases h
    rw [encode, ← hf, ← hkk, encodeXKK_of_fields]
  case h_3 => cases h

theorem encode_of_decodeFamilyF (hf : familyOf op = 0xF#4) (h : decodeFamilyF op = .ok i) : encode i = op := by
  unfold decodeFamilyF at h
  split at h
  case h_1 hkk | h_2 hkk | h_3 hkk | h_4 hkk | h_5 hkk | h_6 hkk | h_7 hkk | h_8 hkk | h_9 hkk =>
    cases h
    rw [encode, ← hf, ← hkk, encodeXKK_of_fields]
  case h_10 => cases h

/-- What the dispatch on the family can do (R84): hand the word to a finer dispatch, or read a row of its family alone, whose
operands are the fields of the word. -/
theorem decodeWord_forms (op : Opcode) :
    (familyOf op = 0x0#4 ∧ decodeWord op = decodeFamily0 op) ∨ (familyOf op = 0x8#4 ∧ decodeWord op = decodeFamily8 op) ∨
    (familyOf op = 0xE#4 ∧ decodeWord op = decodeFamilyE op) ∨ (familyOf op = 0xF#4 ∧ decodeWord op = decodeFamilyF op) ∨
    (familyOf op ∉ [0x0#4, 0x8#4, 0xE#4, 0xF#4] ∧ ∃ i, decodeWord op = .ok i ∧ encode i = op) := by
  unfold decodeWord
  split
  case h_1 hf => exact .inl ⟨hf, rfl⟩
  case h_9 hf => exact .inr (.inl ⟨hf, rfl⟩)
  case h_15 hf => exact .inr (.inr (.inl ⟨hf, rfl⟩))
  case h_16 =>
    refine .inr (.inr (.inr (.inl ⟨?_, rfl⟩)))
    simp only [imp_false] at *
    bv_omega
  case h_2 hf | h_3 hf | h_11 hf | h_12 hf =>
    exact .inr (.inr (.inr (.inr ⟨by rw [hf]; decide, _, rfl, by rw [encode, ← hf, encodeNNN_of_fields]⟩)))
  case h_4 hf | h_5 hf | h_7 hf | h_8 hf | h_13 hf =>
    exact .inr (.inr (.inr (.inr ⟨by rw [hf]; decide, _, rfl, by rw [encode, ← hf, encodeXKK_of_fields]⟩)))
  case h_6 hf | h_10 hf | h_14 hf =>
    exact .inr (.inr (.inr (.inr ⟨by rw [hf]; decide, _, rfl, by rw [encode, ← hf, encodeXYN_of_fields]⟩)))

/-- Settles O9: each row takes its operands from the fields of the word, so the fields put the word together again. -/
theorem encodeOfDecodeGivesTheWord : Obligations.EncodeOfDecodeGivesTheWord := by
  intro op i h
  rcases decodeWord_forms op with ⟨-, hd⟩ | ⟨hf, hd⟩ | ⟨hf, hd⟩ | ⟨hf, hd⟩ | ⟨-, j, hd, hj⟩
  · exact encode_of_decodeFamily0 (hd.symm.trans h)
  · exact encode_of_decodeFamily8 hf (hd.symm.trans h)
  · exact encode_of_decodeFamilyE hf (hd.symm.trans h)
  · exact encode_of_decodeFamilyF hf (hd.symm.trans h)
  · cases hd.symm.trans h
    exact hj

end Sys2Proof
end

section
/-! PROOFS. The rows of the table: mask and match (30_encoding R86). -/

namespace Sys2Proof

open Sys2Proof.Laws

variable {a b op : Opcode} {i : Instr}

/-- The word of an instruction selects the instruction's row, whatever its operands. -/
theorem encode_and_maskOf (i : Instr) : encode i &&& maskOf i = matchOf i := by
  cases i with
  | cls | ret => rfl
  | jp | call | ldI | jpV0 => exact RowFits.nnn_row _ _
  | seImm | sneImm | ldImm | addImm | rnd => exact RowFits.xkk_row _ _ _
  | seReg | sneReg | drw => exact RowFits.xyn_row _ _ _ _
  | ldReg | orReg | andReg | xorReg | addReg | sub | shr | subn | shl => exact RowFits.xys_row _ _ _ _
  | skp | sknp | ldVxDt | ldVxK | ldDtVx | ldStVx | addI | ldF | ldB | stRegs | ldRegs => exact RowFits.xss_row _ _ _

/-! ## Words that agree under a mask -/

theorem familyOf_eq_of_and (h : a &&& 0xF000#16 = b &&& 0xF000#16) : familyOf a = familyOf b := by
  rw [← encodeNNN_of_fields a, ← encodeNNN_of_fields b, RowFits.nnn_row, RowFits.nnn_row] at h
  simpa only [familyOf_encodeNNN] using congrArg familyOf h

theorem familyOf_nOf_eq_of_and (h : a &&& 0xF00F#16 = b &&& 0xF00F#16) : familyOf a = familyOf b ∧ nOf a = nOf b := by
  rw [← encodeXYN_of_fields a, ← encodeXYN_of_fields b, RowFits.xys_row, RowFits.xys_row] at h
  exact ⟨by simpa only [familyOf_encodeXYN] using congrArg familyOf h,
    by simpa only [nOf_encodeXYN] using congrArg nOf h⟩

theorem familyOf_kkOf_eq_of_and (h : a &&& 0xF0FF#16 = b &&& 0xF0FF#16) : familyOf a = familyOf b ∧ kkOf a = kkOf b := by
  rw [← encodeXKK_of_fields a, ← encodeXKK_of_fields b, RowFits.xss_row, RowFits.xss_row] at h
  exact ⟨by simpa only [familyOf_encodeXKK] using congrArg familyOf h,
    by simpa only [kkOf_encodeXKK] using congrArg kkOf h⟩

/-- A word that agrees with the word of `i` under `i`'s mask has the family and the selector of `i`, which decide the row. -/
theorem decodeWord_of_and_eq (h : op &&& maskOf i = encode i &&& maskOf i) :
    ∃ j, decodeWord op = .ok j ∧ maskOf j = maskOf i ∧ matchOf j = matchOf i := by
  cases i with
  | cls | ret =>
    have hop : op &&& BitVec.allOnes 16 = encode _ &&& BitVec.allOnes 16 := h
    rw [BitVec.and_allOnes, BitVec.and_allOnes] at hop
    rw [hop]
    exact ⟨_, decodeOfEncodeGivesTheInstruction _, rfl, rfl⟩
  | jp | call | ldI | jpV0 | seImm | sneImm | ldImm | addImm | rnd | seReg | sneReg | drw =>
    have hf := familyOf_eq_of_and h
    simp only [encode, familyOf_encodeNNN, familyOf_encodeXKK, familyOf_encodeXYN] at hf
    simp only [decodeWord, hf]
    exact ⟨_, rfl, rfl, rfl⟩
  | ldReg | orReg | andReg | xorReg | addReg | sub | shr | subn | shl =>
    obtain ⟨hf, hn⟩ := familyOf_nOf_eq_of_and h
    simp only [encode, familyOf_encodeXYN, nOf_encodeXYN] at hf hn
    simp only [decodeWord, hf, decodeFamily8, hn]
    exact ⟨_, rfl, rfl, rfl⟩
  | skp | sknp =>
    obtain ⟨hf, hkk⟩ := familyOf_kkOf_eq_of_and h
    simp only [encode, familyOf_encodeXKK, kkOf_encodeXKK] at hf hkk
    simp only [decodeWord, hf, decodeFamilyE, hkk]
    exact ⟨_, rfl, rfl, rfl⟩
  | ldVxDt | ldVxK | ldDtVx | ldStVx | addI | ldF | ldB | stRegs | ldRegs =>
    obtain ⟨hf, hkk⟩ := familyOf_kkOf_eq_of_and h
    simp only [encode, familyOf_encodeXKK, kkOf_encodeXKK] at hf hkk
    rw [decodeWord_familyF op hf]
    simp only [decodeFamilyF, hkk]
    exact ⟨_, rfl, rfl, rfl⟩

/-- Settles O10: a word that decodes is the word of its instruction (O9), which selects its row; and a match stands for agreeing
with the word of the row's instruction under the mask. -/
theorem wordsSelectRowsByMaskAndMatch : Obligations.WordsSelectRowsByMaskAndMatch := by
  refine ⟨fun op i h => ?_, fun op i h => decodeWord_of_and_eq (h.trans (encode_and_maskOf i).symm)⟩
  rw [← encodeOfDecodeGivesTheWord op i h, encode_and_maskOf]

end Sys2Proof
end

section
/-! PROOFS. The reserved words (30_encoding R88). -/

namespace Sys2Proof

variable {op : Opcode} {why : Rejected}

/-! ## Family by family -/

theorem decodeFamily0_eq_error_iff :
    decodeFamily0 op = .error why ↔ why = .reservedFamily0 op ∧ op.toNat ≠ 0x00E0 ∧ op.toNat ≠ 0x00EE := by
  unfold decodeFamily0
  split_ifs with hcls hret
  · simp [hcls]
  · simp [hret]
  · simp only [← BitVec.toNat_inj, BitVec.reduceToNat] at hcls hret
    simp [hcls, hret, eq_comm (a := why)]

theorem decodeFamily8_eq_error_iff :
    decodeFamily8 op = .error why ↔
      why = .reservedFamily8 op ∧ op.toNat % 16 ∈ [0x8, 0x9, 0xA, 0xB, 0xC, 0xD, 0xF] := by
  rw [← nOf_toNat]
  unfold decodeFamily8
  split
  case h_1 hn | h_2 hn | h_3 hn | h_4 hn | h_5 hn | h_6 hn | h_7 hn | h_8 hn | h_9 hn => simp [hn]
  case h_10 =>
    have hmem : (nOf op).toNat ∈ [0x8, 0x9, 0xA, 0xB, 0xC, 0xD, 0xF] := by
      simp only [imp_false, List.mem_cons] at *
      bv_omega
    simp [hmem, eq_comm (a := why)]

theorem decodeFamilyE_eq_error_iff :
    decodeFamilyE op = .error why ↔ why = .reservedFamilyE op ∧ op.toNat % 256 ∉ [0x9E, 0xA1] := by
  rw [← kkOf_toNat]
  unfold decodeFamilyE
  split
  case h_1 hkk | h_2 hkk => simp [hkk]
  case h_3 =>
    simp only [imp_false, ← BitVec.toNat_inj, BitVec.reduceToNat] at *
    simp [*, eq_comm (a := why)]

theorem decodeFamilyF_eq_error_iff :
    decodeFamilyF op = .error why ↔
      why = .reservedFamilyF op ∧ op.toNat % 256 ∉ [0x07, 0x0A, 0x15, 0x18, 0x1E, 0x29, 0x33, 0x55, 0x65] := by
  rw [← kkOf_toNat]
  unfold decodeFamilyF
  split
  case h_1 hkk | h_2 hkk | h_3 hkk | h_4 hkk | h_5 hkk | h_6 hkk | h_7 hkk | h_8 hkk | h_9 hkk => simp [hkk]
  case h_10 =>
    simp only [imp_false, ← BitVec.toNat_inj, BitVec.reduceToNat] at *
    simp [*, eq_comm (a := why)]

/-! ## All words -/

/-- The family is the word's top nibble, as R88 reads it. -/
theorem familyOf_eq_iff (f : Nibble) : familyOf op = f ↔ op.toNat / 4096 = f.toNat := by
  have hlt := op.isLt
  rw [← BitVec.toNat_inj, familyOf_toNat, Nat.mod_eq_of_lt (by omega)]

/-- A word is rejected by the finer dispatch of its family or not at all. -/
theorem decodeWord_eq_error_iff :
    decodeWord op = .error why ↔
      (familyOf op = 0x0#4 ∧ decodeFamily0 op = .error why) ∨ (familyOf op = 0x8#4 ∧ decodeFamily8 op = .error why) ∨
      (familyOf op = 0xE#4 ∧ decodeFamilyE op = .error why) ∨ (familyOf op = 0xF#4 ∧ decodeFamilyF op = .error why) := by
  rcases decodeWord_forms op with ⟨hf, hd⟩ | ⟨hf, hd⟩ | ⟨hf, hd⟩ | ⟨hf, hd⟩ | ⟨hf, i, hd, -⟩
  · simp [hd, hf]
  · simp [hd, hf]
  · simp [hd, hf]
  · simp [hd, hf]
  · simp only [List.mem_cons, List.not_mem_nil, or_false, not_or] at hf
    simp [hd, hf]

/-- Settles O11: a class of R88 is what one family's dispatch rejects, and no two families reject by one name. -/
theorem reservedWordsAreTheFourClasses : Obligations.ReservedWordsAreTheFourClasses := by
  intro op
  simp only [decodeWord_eq_error_iff, decodeFamily0_eq_error_iff, decodeFamily8_eq_error_iff,
    decodeFamilyE_eq_error_iff, decodeFamilyF_eq_error_iff, familyOf_eq_iff]
  refine ⟨by simp, by simp, by simp, by simp, ?_⟩
  rintro why (⟨-, h, -⟩ | ⟨-, h, -⟩ | ⟨-, h, -⟩ | ⟨-, h, -⟩)
  · exact .inl h
  · exact .inr (.inl h)
  · exact .inr (.inr (.inl h))
  · exact .inr (.inr (.inr h))

end Sys2Proof
end

section
/-! PROOFS. The step on a reserved word (30_encoding R89). -/

namespace Sys2Proof.Machine

/-- Settles O14: of the forms of a step, only the one that passes over a reserved word is left, and the statement writes it out. -/
theorem stepOnReservedWordOnlyAdvances : Obligations.StepOnReservedWordOnlyAdvances := by
  intro s why hpc hd
  rcases step_forms s with ⟨hhalt, -⟩ | ⟨i, -, hok, -⟩ | ⟨-, -, -, -, hs⟩
  · exact absurd hpc (Nat.not_lt.mpr ((pcOutOfRange_eq_true s).mp hhalt))
  · exact nomatch hd.symm.trans hok
  · exact hs

end Sys2Proof.Machine
end

section
/-! PROOFS. The step cycle (40_step_cycle R100 to R108): which form a step takes, and that every step and every run completes. -/

namespace Sys2Proof.Safety

open Sys2Proof.Machine

/-! ## Which form a step takes -/

/-- Below the bound, the instruction a step executes is the one its word decodes to (R102 to R105). -/
theorem executed_of_decodeWord {s : State} {i : Instr} (hpc : s.pc.toNat < 0x1000) (hd : decodeWord (fetch s) = .ok i) :
    executed s = some i := by
  rw [executed_eq, (pcOutOfRange_eq_false s).mpr hpc, hd]
  rfl

/-- Settles O13: the state in the statement is the one the tick and the pre-advance leave, written out. -/
theorem stepRunsTheDecodedInstruction : Obligations.StepRunsTheDecodedInstruction := fun _ _ hpc hd =>
  step_of_executed (executed_of_decodeWord hpc hd)

/-- Settles O15: of the forms of a step, only the halt has PC out of range. -/
theorem stepWithPcOutOfRangeHalts : Obligations.StepWithPcOutOfRangeHalts := by
  intro s hpc
  have hout := (pcOutOfRange_eq_true s).mpr hpc
  rcases step_forms s with ⟨-, -, hs⟩ | ⟨i, hin, -⟩ | ⟨why, hin, -⟩
  · exact hs
  · exact nomatch hout.symm.trans hin
  · exact nomatch hout.symm.trans hin

/-! ## Completion -/

/-- Every meaning answers a next state: RET in both its forms, the others by their definitions, where the normative stack of CALL is
never full (R195). -/
theorem exec_completes (i : Instr) (s : State) : ∃ t, exec i s = .next t := by
  cases i with
  | ret =>
    rcases execRet_forms s with ⟨_, _, -, hpop⟩ | ⟨-, hhalt⟩
    · exact ⟨_, hpop⟩
    · exact ⟨_, hhalt⟩
  | _ => exact ⟨_, rfl⟩

theorem step_completes (s : State) : ∃ t, step s = .next t := by
  rcases step_forms s with ⟨-, -, hs⟩ | ⟨i, -, -, -, hs⟩ | ⟨_, -, -, -, hs⟩
  · exact ⟨_, hs⟩
  · rw [hs]
    exact exec_completes i _
  · exact ⟨_, hs⟩

theorem hostedRun_completes (h : Schedule) (s : State) : ∃ t, hostedRun h s = .next t := by
  induction h generalizing s with
  | nil => exact ⟨s, rfl⟩
  | cons ms h ih =>
    obtain ⟨u, hu⟩ := step_completes (HostMove.applyAll ms s)
    obtain ⟨t, ht⟩ := ih u
    exact ⟨t, hostedRun_cons.mpr ⟨u, hu, ht⟩⟩

/-- Settles O16: completion of an instruction, of a step, of a run. -/
theorem everyStepCompletes : Obligations.EveryStepCompletes := ⟨exec_completes, step_completes, hostedRun_completes⟩

end Sys2Proof.Safety
end

section
/-! PROOFS. What one step does to the step counter, the delay timer and the draw index (R101, R107, R110): the tick counts, FX15 alone
writes DT after it, and CXKK alone uses up a free random byte. -/

namespace Sys2Proof.Safety

open Sys2Proof.Machine

variable {f : Touch} {i : Instr} {s t : State}

/-! ## The components of a frame -/

theorem Unchanged.dt_eq (h : Unchanged f s t) (hf : f.dt = false) : t.dt = s.dt := by
  obtain ⟨-, -, -, -, -, hdt, -⟩ := h
  exact hdt hf

theorem Unchanged.rndIndex_eq (h : Unchanged f s t) (hf : f.rndIndex = false) : t.rndIndex = s.rndIndex := by
  obtain ⟨-, -, -, -, -, -, -, -, -, hrnd, -⟩ := h
  exact hrnd hf

theorem Unchanged.sc_eq (h : Unchanged f s t) : t.sc = s.sc := by
  obtain ⟨-, -, -, -, -, -, -, -, -, -, -, hsc⟩ := h
  exact hsc

/-! ## One instruction -/

/-- No instruction but FX15 writes DT (R39, R182). -/
theorem exec_dt_of_ne (h : exec i s = .next t) (hne : ∀ x, i ≠ .ldDtVx x) : t.dt = s.dt := by
  cases i with
  | ldDtVx x => exact absurd rfl (hne x)
  | _ => exact (exec_unchanged h).dt_eq rfl

/-- No instruction but CXKK uses up a free random byte (R107, log 4). -/
theorem exec_rndIndex_of_ne (h : exec i s = .next t) (hne : ∀ x kk, i ≠ .rnd x kk) : t.rndIndex = s.rndIndex := by
  cases i with
  | rnd x kk => exact absurd rfl (hne x kk)
  | _ => exact (exec_unchanged h).rndIndex_eq rfl

/-! ## One step -/

/-- Settles O17: the halt, the pre-advance and every instruction but FX15 keep what the tick made of SC and DT. -/
theorem everyStepCountsAndTicks : Obligations.EveryStepCountsAndTicks := by
  intro s t h
  rcases step_cases h with ⟨-, he, rfl⟩ | ⟨i, -, he, hexec⟩ | ⟨-, he, rfl⟩
  · exact ⟨rfl, fun _ => tick_dt_toNat s, fun _ hx => nomatch he.symm.trans hx⟩
  · refine ⟨(exec_unchanged hexec).sc_eq, fun hne => ?_, fun x hx => ?_⟩
    · rw [exec_dt_of_ne hexec fun x hi => hne x (he.trans (congrArg some hi)), preAdvance_dt, tick_dt_toNat]
    · cases he.symm.trans hx
      cases hexec
      rfl
  · exact ⟨rfl, fun _ => tick_dt_toNat s, fun _ hx => nomatch he.symm.trans hx⟩

/-- Settles O58: the tick, the halt and the pre-advance leave the draw index, CXKK takes the byte it numbers and moves it on, and no host
move writes it. -/
theorem everyDrawIsFresh : Obligations.EveryDrawIsFresh := by
  refine ⟨fun s t h => ?_, HostMove.apply_rndIndex⟩
  rcases step_cases h with ⟨-, he, rfl⟩ | ⟨i, -, he, hexec⟩ | ⟨-, he, rfl⟩
  · exact ⟨fun _ => rfl, fun _ _ hx => nomatch he.symm.trans hx⟩
  · refine ⟨fun hne => ?_, fun x kk hx => ?_⟩
    · rw [exec_rndIndex_of_ne hexec fun x kk hi => hne x kk (he.trans (congrArg some hi)), preAdvance_rndIndex,
        tick_rndIndex]
    · cases he.symm.trans hx
      cases hexec
      exact ⟨rfl, State.readV_writeV_same _ x _⟩
  · exact ⟨fun _ => rfl, fun _ _ hx => nomatch he.symm.trans hx⟩

end Sys2Proof.Safety
end

section
/-! PROOFS. The cadence of the delay timer over a run without FX15, with a quiet host between the steps (R111, R234). -/

namespace Sys2Proof.Safety

open Sys2Proof.Machine

/-- The even values among n + 1 to n + k + 1: the first of them, and those among n + 2 to n + 1 + k. -/
theorem countP_even_range_succ (n k : Nat) :
    ((List.range (k + 1)).countP fun m => (n + 1 + m) % 2 == 0) =
      (if (n + 1) % 2 = 0 then 1 else 0) + (List.range k).countP fun m => (n + 1 + 1 + m) % 2 == 0 := by
  have hshift : ((fun m => (n + 1 + m) % 2 == 0) ∘ Nat.succ) = fun m => (n + 1 + 1 + m) % 2 == 0 := by
    funext m
    rw [Function.comp_apply, Nat.succ_eq_one_add, Nat.add_assoc (n + 1)]
  rw [List.range_succ_eq_map, List.countP_cons, List.countP_map, hshift, Nat.add_comm]
  simp

/-- Quiet moves write neither SC nor DT (R228). -/
theorem applyAll_quiet_sc_dt {ms : List HostMove} (hq : ms.all HostMove.quiet = true) (s : State) :
    (HostMove.applyAll ms s).sc = s.sc ∧ (HostMove.applyAll ms s).dt = s.dt := by
  obtain ⟨k, d, hm⟩ := HostMove.applyAll_quiet hq s
  rw [hm]
  exact ⟨rfl, rfl⟩

/-- Settles O18, by induction on the schedule: the first step counts and ticks as O17 says, and takes the first value off the count of
even ones. -/
theorem timerCadenceOverAnyRun : Obligations.TimerCadenceOverAnyRun := by
  intro h
  induction h with
  | nil =>
    intro s t _ _ ht
    cases ht
    simp
  | cons ms h ih =>
    intro s t hq hnever ht
    simp only [Schedule.quiet, List.all_cons, Bool.and_eq_true] at hq
    obtain ⟨u, hstep, hrest⟩ := hostedRun_cons.mp ht
    obtain ⟨hfirst, htail⟩ := neverExecutes_cons hnever hstep
    obtain ⟨hsc, htick, -⟩ := everyStepCountsAndTicks _ u hstep
    obtain ⟨hqsc, hqdt⟩ := applyAll_quiet_sc_dt hq.1 s
    have hdt := htick fun x hx => hfirst _ hx ⟨x, rfl⟩
    obtain ⟨ihsc, ihdt⟩ := ih u t hq.2 htail hrest
    rw [hqsc] at hsc
    rw [hqsc, hqdt] at hdt
    rw [hsc] at ihsc ihdt
    rw [List.length_cons, countP_even_range_succ]
    refine ⟨by omega, ?_⟩
    split at hdt
    · next heven =>
      rw [if_pos heven]
      omega
    · next hodd =>
      rw [if_neg hodd]
      omega

end Sys2Proof.Safety
end

section
/-! PROOFS. The running flag (R33, R109; the spec's decision D16, log 16): a step commutes with clearing it beforehand, because it reads
the flag nowhere and writes nothing to it but false. -/

namespace Sys2Proof.Safety

open Sys2Proof.Machine

/-- The state with running kept as it is (`b` true) or cleared (`b` false). -/
def andRunning (b : Bool) (s : State) : State := { s with running := b && s.running }

variable {b : Bool} {i : Instr} {s t : State}

theorem andRunning_of_running (b : Bool) (s : State) :
    andRunning b { s with running := true } = { s with running := b } := by simp [andRunning]

theorem halt_andRunning (b : Bool) (s : State) : (andRunning b s).halt = andRunning b s.halt := by cases b <;> rfl

theorem skipIf_andRunning (b : Bool) (s : State) (c : Bool) : (andRunning b s).skipIf c = andRunning b (s.skipIf c) := by
  cases c <;> rfl

theorem loadRegsUpTo_andRunning (b : Bool) (s : State) (x : RegIx) :
    (andRunning b s).loadRegsUpTo x = andRunning b (s.loadRegsUpTo x) :=
  List.foldl_hom (andRunning b) fun _ _ => rfl

/-- A 00EE reads the stack alone, and its halt writes false. -/
theorem execRet_andRunning (h : execRet s = .next t) : execRet (andRunning b s) = .next (andRunning b t) := by
  have hstack : (andRunning b s).stack = s.stack := rfl
  unfold execRet at h ⊢
  rw [hstack]
  cases hlast : s.stack.getLast? with
  | none =>
    rw [hlast] at h
    cases h
    exact congrArg _ (halt_andRunning b s)
  | some a =>
    rw [hlast] at h
    cases h
    rfl

/-- No instruction reads running, and the only one that writes it, 00EE on the empty stack, clears it. -/
theorem exec_andRunning (h : exec i s = .next t) : exec i (andRunning b s) = .next (andRunning b t) := by
  cases i with
  | ret => exact execRet_andRunning h
  | seImm | sneImm | seReg | sneReg | skp | sknp =>
    cases h
    exact congrArg _ (skipIf_andRunning b s _)
  | ldRegs x =>
    cases h
    exact congrArg _ (loadRegsUpTo_andRunning b s x)
  | _ =>
    cases h
    rfl

/-- The three forms of a step: the halt clears running whatever it was, the other two take it along. -/
theorem step_andRunning (h : step s = .next t) : step (andRunning b s) = .next (andRunning b t) := by
  have hexecuted : executed (andRunning b s) = executed s := rfl
  cases he : executed s with
  | none =>
    rw [step_of_not_executed he] at h
    cases h
    rw [step_of_not_executed (hexecuted.trans he), apply_ite (andRunning b), ← halt_andRunning]
    rfl
  | some i =>
    rw [step_of_executed he] at h
    rw [step_of_executed (hexecuted.trans he)]
    exact exec_andRunning h

/-- Settles O19: `step_andRunning` where running was true. -/
theorem stepIgnoresTheRunningFlag : Obligations.StepIgnoresTheRunningFlag := by
  intro s t b h
  rw [← andRunning_of_running b s]
  exact step_andRunning h

end Sys2Proof.Safety
end

section
/-! PROOFS. Control transfer (41_flow R121 to R124): RET on each of its two stacks, the targets of the jumps as numbers, and CALL
with the RET that undoes it. -/

namespace Sys2Proof.Safety

open Sys2Proof.Machine

variable {s : State}

/-! ## RET on a given stack -/

theorem execRet_of_stack_concat {older : List Addr} {a : Addr} (h : s.stack = older ++ [a]) :
    execRet s = .next ((s.setStack older).jump a) := by
  rcases execRet_forms s with ⟨older', a', h', hpop⟩ | ⟨h', -⟩
  · obtain ⟨rfl, rfl⟩ : older = older' ∧ a = a' := by simpa using h.symm.trans h'
    exact hpop
  · simp [h] at h'

theorem execRet_of_stack_nil (h : s.stack = []) : execRet s = .next s.halt := by
  rcases execRet_forms s with ⟨older, a, h', -⟩ | ⟨-, hhalt⟩
  · simp [h] at h'
  · exact hhalt

/-- Settles O23: the two stacks of `execRet`, with the frame rules of the pop and of the halt. -/
theorem returnPopsOrHalts : Obligations.ReturnPopsOrHalts := by
  constructor
  · intro s older a h
    exact ⟨_, execRet_of_stack_concat h, rfl, rfl, (Unchanged.setStack rfl s older).trans (.jump rfl _ a)⟩
  · intro s h
    exact ⟨_, execRet_of_stack_nil h, rfl, .halt rfl s⟩

/-! ## The jumps -/

/-- The sum of BNNN is the exact one: it is far below 65536, so the 16-bit addition loses nothing (R124). -/
theorem zextNNN_add_zextByte_toNat (nnn : Addr12) (b : Byte) :
    (zextNNN nnn + zextByte b).toNat = nnn.toNat + b.toNat := by
  have hnnn := nnn.isLt
  have hb := b.isLt
  rw [BitVec.toNat_add, zextNNN_toNat, zextByte_toNat]
  omega

/-- Settles O24: the words decode by O8; where the sum of BNNN leaves memory, the next step is the halt of O15. -/
theorem jumpsWriteOnlyPc : Obligations.JumpsWriteOnlyPc := by
  intro s nnn
  have htarget := zextNNN_add_zextByte_toNat nnn (s.readV v0)
  refine ⟨decodeOfEncodeGivesTheInstruction (.jp nnn), decodeOfEncodeGivesTheInstruction (.jpV0 nnn),
    ⟨_, rfl, zextNNN_toNat nnn, .jump rfl s _⟩, ⟨_, rfl, htarget, .jump rfl s _, fun hout => ?_⟩⟩
  exact ⟨_, stepWithPcOutOfRangeHalts _ (hout.trans_eq htarget.symm), rfl, rfl⟩

/-! ## CALL -/

/-- Settles O25: CALL is a push of PC and a jump, as the unbounded stack is never full. -/
theorem callPushesAndJumps : Obligations.CallPushesAndJumps := fun s nnn =>
  ⟨_, rfl, rfl, zextNNN_toNat nnn, (Unchanged.push rfl s s.pc).trans (.jump rfl _ _)⟩

/-- Settles O26: CALL leaves the stack of `s` with the PC of `s` at its end, so a RET on that stack pops this PC (O23). -/
theorem returnUndoesCall : Obligations.ReturnUndoesCall := by
  intro s t u nnn hcall hu
  have hstack : u.stack = s.stack ++ [s.pc] := hu.trans (exec_stack hcall)
  obtain ⟨hpops, -⟩ := returnPopsOrHalts
  obtain ⟨w, hret, hpc, hrest, -⟩ := hpops u s.stack s.pc hstack
  exact ⟨w, hret, hpc, hrest⟩

end Sys2Proof.Safety
end

section
/-! PROOFS. The conditional skips (42_skip R130 to R136): an instruction whose meaning is `State.skipIf` skips exactly where its
condition holds, and each of the six compares its operands by a boolean test that decides the condition the spec names. -/

namespace Sys2Proof.Safety

open Sys2Proof.Machine

variable {s : State} {i : Instr} {c : Bool} {P : Prop} [Decidable P]

/-! ## An instruction that is a skip -/

/-- A test `c` that decides `P` skips where `P` holds. -/
theorem exec_skip_iff (hexec : exec i s = .next (s.skipIf c)) (hc : c = true ↔ P) :
    ∃ t, exec i s = .next t ∧ t.pc = (if P then s.pc + 2#16 else s.pc) ∧ Unchanged { pc := true } s t :=
  ⟨_, hexec, (State.skipIf_pc s c).trans (by simp only [hc]), .skipIf rfl s c⟩

/-- A test `c` that refutes `P` skips where `P` fails. -/
theorem exec_skip_iff_not (hexec : exec i s = .next (s.skipIf c)) (hc : c = true ↔ ¬ P) :
    ∃ t, exec i s = .next t ∧ t.pc = (if P then s.pc else s.pc + 2#16) ∧ Unchanged { pc := true } s t := by
  simpa only [ite_not] using exec_skip_iff hexec hc

/-! ## The six skips -/

/-- Settles O27: the words decode by O8, and the test compares Vx with KK. -/
theorem skipsOnImmediate : Obligations.SkipsOnImmediate := fun _ x kk =>
  ⟨decodeOfEncodeGivesTheInstruction (.seImm x kk), decodeOfEncodeGivesTheInstruction (.sneImm x kk),
    exec_skip_iff rfl beq_iff_eq, exec_skip_iff_not rfl bne_iff_ne⟩

/-- Settles O28: the test compares Vx with Vy, and the low nibble is not read. -/
theorem skipsOnRegisters : Obligations.SkipsOnRegisters := fun _ _ _ _ =>
  ⟨exec_skip_iff rfl beq_iff_eq, exec_skip_iff_not rfl bne_iff_ne⟩

/-- The test of EX9E and EXA1 is the bit of the key matrix at Vx modulo 16 (R196). -/
theorem keyPressed_iff (s : State) (b : Byte) : s.keyPressed b = true ↔ s.keys.getLsbD (b.toNat % 16) = true := Iff.rfl

theorem not_keyPressed_iff (s : State) (b : Byte) :
    (!s.keyPressed b) = true ↔ ¬ s.keys.getLsbD (b.toNat % 16) = true := by
  rw [Bool.not_eq_true', ← keyPressed_iff, Bool.not_eq_true]

/-- Settles O29: the test reads one key of the matrix. -/
theorem skipsOnKeys : Obligations.SkipsOnKeys := fun s x =>
  ⟨exec_skip_iff rfl (keyPressed_iff s (s.readV x)), exec_skip_iff_not rfl (not_keyPressed_iff s (s.readV x))⟩

end Sys2Proof.Safety
end

section
/-! PROOFS. Registers and arithmetic (43_alu R140 to R154). An instruction of the family is one register write, a register write and
then the flag, or the flag and then a register write; each shape has one lemma. What is left of an instruction is its arithmetic, as
numbers. -/

namespace Sys2Proof.Safety

open Sys2Proof.Machine

variable {i : Instr} {s : State} {x : RegIx} {b : Byte} {c : Bool}

/-! ## The flags and the results as numbers (R141) -/

theorem flagByte_addCarry_toNat (a b : Byte) :
    (flagByte (addCarry a b)).toNat = if 255 < a.toNat + b.toNat then 1 else 0 := by
  simp only [flagByte_toNat, addCarry, decide_eq_true_eq]

theorem flagByte_strictlyGreater_toNat (a b : Byte) :
    (flagByte (strictlyGreater a b)).toNat = if b.toNat < a.toNat then 1 else 0 := by
  simp only [flagByte_toNat, strictlyGreater, decide_eq_true_eq]

theorem flagByte_shiftedOutRight_toNat (a : Byte) : (flagByte (shiftedOutRight a)).toNat = a.toNat % 2 := by
  simp only [flagByte_toNat, shiftedOutRight, decide_eq_true_eq]
  split <;> omega

theorem flagByte_shiftedOutLeft_toNat (a : Byte) : (flagByte (shiftedOutLeft a)).toNat = a.toNat * 2 / 256 := by
  have ha := a.isLt
  simp only [flagByte_toNat, shiftedOutLeft, decide_eq_true_eq]
  split <;> omega

/-- A flag byte is 0 or 1, so halving it leaves nothing. -/
theorem flagByte_ushiftRight_one (c : Bool) : flagByte c >>> 1 = 0x00#8 := by cases c <;> rfl

theorem byte_sub_toNat (a b : Byte) : (a - b).toNat = (a.toNat + 256 - b.toNat) % 256 := by
  have hb := b.isLt
  rw [BitVec.toNat_sub]
  omega

theorem byte_ushiftRight_one_toNat (a : Byte) : (a >>> 1).toNat = a.toNat / 2 := by
  rw [BitVec.toNat_ushiftRight, Nat.shiftRight_eq_div_pow, pow_one]

theorem byte_shiftLeft_one_toNat (a : Byte) : (a <<< 1).toNat = a.toNat * 2 % 256 := by
  rw [BitVec.toNat_shiftLeft, Nat.shiftLeft_eq, pow_one]

/-! ## The three shapes -/

/-- One register write and no flag. -/
theorem exec_write (h : exec i s = .next (s.writeV x b)) :
    ∃ t, exec i s = .next t ∧ t.readV x = b ∧ Unchanged { regs := [x] } s t :=
  ⟨_, h, State.readV_writeV_same s x b, .writeV (List.mem_singleton_self x) s b⟩

/-- A register write and then the flag: the flag wins where X is 0xF. -/
theorem exec_write_flag (h : exec i s = .next ((s.writeV x b).setFlag c)) :
    ∃ t, exec i s = .next t ∧ (x ≠ vf → t.readV x = b) ∧ t.readV vf = flagByte c ∧ Unchanged { regs := [x, vf] } s t :=
  ⟨_, h, fun hx => (State.readV_setFlag_ne _ c hx).trans (State.readV_writeV_same s x b), State.readV_setFlag_same _ c,
    (Unchanged.writeV (by simp) s b).trans (.setFlag (by simp) _ c)⟩

/-- The flag and then a register write: the write wins where X is 0xF. -/
theorem exec_flag_write (h : exec i s = .next ((s.setFlag c).writeV x b)) :
    ∃ t, exec i s = .next t ∧ t.readV x = b ∧ (x ≠ vf → t.readV vf = flagByte c) ∧ Unchanged { regs := [x, vf] } s t :=
  ⟨_, h, State.readV_writeV_same _ x b,
    fun hx => (State.readV_writeV_ne _ b hx.symm).trans (State.readV_setFlag_same s c),
    (Unchanged.setFlag (by simp) s c).trans (.writeV (by simp) _ b)⟩

/-! ## Load, move, logic and random -/

/-- Settles O30: the words decode by O8, and each of the two is one register write. -/
theorem loadAndAddImmediate : Obligations.LoadAndAddImmediate := by
  intro s x kk
  refine ⟨decodeOfEncodeGivesTheInstruction (.ldImm x kk), decodeOfEncodeGivesTheInstruction (.addImm x kk), exec_write rfl, ?_⟩
  obtain ⟨t, ht, hx, hframe⟩ := exec_write (i := .addImm x kk) (s := s) rfl
  exact ⟨t, ht, hx ▸ BitVec.toNat_add _ _, hframe⟩

/-- Settles O31: the words decode by O8, and each of the four is one register write. -/
theorem moveAndLogic : Obligations.MoveAndLogic := fun _ x y =>
  ⟨decodeOfEncodeGivesTheInstruction (.ldReg x y), decodeOfEncodeGivesTheInstruction (.orReg x y),
    decodeOfEncodeGivesTheInstruction (.andReg x y), decodeOfEncodeGivesTheInstruction (.xorReg x y),
    exec_write rfl, exec_write rfl, exec_write rfl, exec_write rfl⟩

/-- Settles O37: the byte of this draw is masked with KK, whatever it is, and the draw is used up. -/
theorem randomIsMasked : Obligations.RandomIsMasked := by
  intro s x kk
  have hx : (s.rndTaken.writeV x (s.rndByte &&& kk)).readV x = Config.rnd s.rndIndex &&& kk :=
    State.readV_writeV_same s.rndTaken x _
  refine ⟨_, rfl, hx, ?_, rfl, exec_unchanged (i := .rnd x kk) rfl⟩
  rw [hx, BitVec.and_assoc, BitVec.and_not_self]
  exact BitVec.and_zero

/-! ## The instructions that write the flag -/

/-- Settles O32: the sum is written first and the carry last. -/
theorem addSetsTheCarry : Obligations.AddSetsTheCarry := by
  intro s x y
  obtain ⟨t, ht, hx, hflag, hframe⟩ := exec_write_flag (i := .addReg x y) (s := s) rfl
  refine ⟨t, ht, fun hne => ?_, ?_, hframe⟩
  · rw [hx hne, BitVec.toNat_add]
  · rw [hflag, flagByte_addCarry_toNat]

/-- Settles O35: the doubled value is written first and the bit shifted out last. -/
theorem shiftLeftSetsTheOldTopBit : Obligations.ShiftLeftSetsTheOldTopBit := by
  intro s x y
  obtain ⟨t, ht, hx, hflag, hframe⟩ := exec_write_flag (i := .shl x y) (s := s) rfl
  refine ⟨t, ht, fun hne => ?_, ?_, hframe⟩
  · rw [hx hne, byte_shiftLeft_one_toNat]
  · rw [hflag, flagByte_shiftedOutLeft_toNat]

/-- Settles O34: the flag is written first, so with X = 0xF it is the flag that is halved. -/
theorem shiftRightWritesTheFlagFirst : Obligations.ShiftRightWritesTheFlagFirst := by
  intro s x y
  obtain ⟨t, ht, hx, hflag, hframe⟩ := exec_flag_write (i := .shr x y) (s := s) rfl
  refine ⟨t, ht, fun hne => ⟨?_, ?_⟩, ?_, hframe⟩
  · rw [hx, State.readV_setFlag_ne s _ hne, byte_ushiftRight_one_toNat]
  · rw [hflag hne, flagByte_shiftedOutRight_toNat]
  · rintro rfl
    rw [hx, State.readV_setFlag_same, flagByte_ushiftRight_one]

/-- The difference of two registers after a flag write, where VF already holds the flag `g`. -/
theorem readV_setFlag_sub_toNat {g : Nat} (hg : (flagByte c).toNat = g) (s : State) (p q : RegIx) :
    ((s.setFlag c).readV p - (s.setFlag c).readV q).toNat =
      ((if p = vf then g else (s.readV p).toNat) + 256 - (if q = vf then g else (s.readV q).toNat)) % 256 := by
  simp only [byte_sub_toNat, State.readV_setFlag, apply_ite BitVec.toNat, hg]

/-- Settles O33: the comparison is written first, and the difference reads the registers as they then are. -/
theorem subtractionsWriteTheFlagFirst : Obligations.SubtractionsWriteTheFlagFirst := by
  intro s x y
  constructor
  · have hg := flagByte_strictlyGreater_toNat (s.readV x) (s.readV y)
    obtain ⟨t, ht, hx, hflag, hframe⟩ := exec_flag_write (i := .sub x y) (s := s) rfl
    exact ⟨t, ht, ⟨hx ▸ readV_setFlag_sub_toNat hg s x y, fun hne => hflag hne ▸ hg⟩, hframe⟩
  · have hg := flagByte_strictlyGreater_toNat (s.readV y) (s.readV x)
    obtain ⟨t, ht, hx, hflag, hframe⟩ := exec_flag_write (i := .subn x y) (s := s) rfl
    exact ⟨t, ht, ⟨hx ▸ readV_setFlag_sub_toNat hg s y x, fun hne => hflag hne ▸ hg⟩, hframe⟩

/-! ## VF as an operand -/

/-- Settles O36: each row of R154 is its instruction's rule (O32 to O35) at the operands of the row. -/
theorem vfAsAnOperand : Obligations.VfAsAnOperand := by
  intro s r z hr
  obtain ⟨subFR, subnFR⟩ := subtractionsWriteTheFlagFirst s vf r
  obtain ⟨subRF, subnRF⟩ := subtractionsWriteTheFlagFirst s r vf
  obtain ⟨subFF, subnFF⟩ := subtractionsWriteTheFlagFirst s vf vf
  refine ⟨?add_f_r, ?add_r_f, ?add_f_f, ?sub_f_r, ?sub_r_f, ?sub_f_f, ?shr_f, ?subn_f_r, ?subn_r_f, ?subn_f_f, ?shl_f⟩
  case add_f_r =>
    obtain ⟨t, ht, -, hflag, -⟩ := addSetsTheCarry s vf r
    exact ⟨t, ht, hflag⟩
  case add_r_f =>
    obtain ⟨t, ht, hsum, hflag, -⟩ := addSetsTheCarry s r vf
    exact ⟨t, ht, hsum hr, hflag⟩
  case add_f_f =>
    obtain ⟨t, ht, -, hflag, -⟩ := addSetsTheCarry s vf vf
    exact ⟨t, ht, by rw [hflag, two_mul]⟩
  case sub_f_r =>
    obtain ⟨t, ht, ⟨hdiff, -⟩, -⟩ := subFR
    exact ⟨t, ht, by simpa only [if_pos, if_neg hr] using hdiff⟩
  case sub_r_f =>
    obtain ⟨t, ht, ⟨hdiff, hflag⟩, -⟩ := subRF
    exact ⟨t, ht, by simpa only [if_pos, if_neg hr] using hdiff, hflag hr⟩
  case sub_f_f =>
    obtain ⟨t, ht, ⟨hdiff, -⟩, -⟩ := subFF
    exact ⟨t, ht, BitVec.eq_of_toNat_eq (by simpa using hdiff)⟩
  case shr_f =>
    obtain ⟨t, ht, -, hzero, -⟩ := shiftRightWritesTheFlagFirst s vf z
    exact ⟨t, ht, hzero rfl⟩
  case subn_f_r =>
    obtain ⟨t, ht, ⟨hdiff, -⟩, -⟩ := subnFR
    exact ⟨t, ht, by simpa only [if_pos, if_neg hr] using hdiff⟩
  case subn_r_f =>
    obtain ⟨t, ht, ⟨hdiff, hflag⟩, -⟩ := subnRF
    exact ⟨t, ht, by simpa only [if_pos, if_neg hr] using hdiff, hflag hr⟩
  case subn_f_f =>
    obtain ⟨t, ht, ⟨hdiff, -⟩, -⟩ := subnFF
    exact ⟨t, ht, BitVec.eq_of_toNat_eq (by simpa using hdiff)⟩
  case shl_f =>
    obtain ⟨t, ht, -, hflag, -⟩ := shiftLeftSetsTheOldTopBit s vf z
    exact ⟨t, ht, hflag.trans (by omega)⟩

end Sys2Proof.Safety
end

section
/-! PROOFS. The index register and the transfers between registers and memory (44_index_memory R160 to R167). The sums and products
written to I are given as numbers; FX55, FX33 and FX65 are each one lemma on what they leave, and a load after a store composes
two of them. -/

namespace Sys2Proof.Safety

open Sys2Proof.Machine

variable {s t u w : State} {x r : RegIx}

/-! ## The transfers -/

/-- Settles O41: every register is found at its address, and the frame is that of O6. -/
theorem registersAreStored : Obligations.RegistersAreStored := fun _ x =>
  ⟨_, rfl, fun _ hr => memRead_of_exec_stRegs rfl hr, exec_unchanged (i := .stRegs x) rfl⟩

/-- FX65 loads register r from I + r (R166). -/
theorem readV_of_exec_ldRegs (h : exec (.ldRegs x) s = .next t) (hr : r.toNat ≤ x.toNat) :
    t.readV r = memRead s.mem (s.dataAddr r.toNat) := by
  cases h
  obtain ⟨hread, -⟩ := State.loadRegsUpTo_spec s x
  rw [hread, if_pos hr]

/-- Settles O42: every register holds the byte at its address, and the frame is that of O6. -/
theorem registersAreLoaded : Obligations.RegistersAreLoaded := fun _ x =>
  ⟨_, rfl, fun _ hr => readV_of_exec_ldRegs rfl hr, exec_unchanged (i := .ldRegs x) rfl⟩

/-- The three digits FX33 stores, each at its address (R164). A byte is below 1000, so the first digit is its hundreds. -/
theorem digits_of_exec_ldB (h : exec (.ldB x) s = .next t) :
    (memRead t.mem (s.dataAddr 0)).toNat = (s.readV x).toNat / 100 ∧
    (memRead t.mem (s.dataAddr 1)).toNat = (s.readV x).toNat / 10 % 10 ∧
    (memRead t.mem (s.dataAddr 2)).toNat = (s.readV x).toNat % 10 := by
  have digit {k : Nat} (hk : k ≤ 2) := memRead_toNat_of_exec_ldB h hk
  have hlt : (s.readV x).toNat / 10 ^ 2 < 10 := by
    have := (s.readV x).isLt
    omega
  exact ⟨(digit (k := 0) (by decide)).trans (Nat.mod_eq_of_lt hlt), digit (k := 1) (by decide),
    by simpa using digit (k := 2) (by decide)⟩

/-- Settles O40: the digits at their addresses, and the frame is that of O6. -/
theorem decimalDigitsAreStored : Obligations.DecimalDigitsAreStored := fun _ x =>
  have ⟨hundreds, tens, ones⟩ := digits_of_exec_ldB rfl
  ⟨_, rfl, hundreds, tens, ones, exec_unchanged (i := .ldB x) rfl⟩

/-! ## A load after a store -/

/-- FX65 at the I of `s` loads the bytes of `t` that are still in place at the addresses I counts from. -/
theorem readV_of_exec_ldRegs_of_kept (h : exec (.ldRegs x) u = .next w) (hi : u.i = s.i)
    (hkept : ∀ k, k ≤ x.toNat → memRead u.mem (s.dataAddr k) = memRead t.mem (s.dataAddr k)) (hr : r.toNat ≤ x.toNat) :
    w.readV r = memRead t.mem (s.dataAddr r.toNat) := by
  have haddr : u.dataAddr r.toNat = s.dataAddr r.toNat := by rw [State.dataAddr, hi, State.dataAddr]
  rw [readV_of_exec_ldRegs h hr, haddr, hkept _ hr]

/-- Settles O43: the load reads the bytes in place, and these are the registers or the digits the store left there. -/
theorem storeThenLoadRestores : Obligations.StoreThenLoadRestores := by
  constructor
  · intro s t u w x hstore hkept hi hload r hr
    rw [readV_of_exec_ldRegs_of_kept hload hi hkept hr, memRead_of_exec_stRegs hstore hr]
  · intro s t u w x hstore hkept hi hload
    have hread (r : RegIx) (hr : r.toNat ≤ 2) := readV_of_exec_ldRegs_of_kept hload hi hkept hr
    rw [hread 0x0#4 (by decide), hread 0x1#4 (by decide), hread 0x2#4 (by decide)]
    exact digits_of_exec_ldB hstore

/-! ## The index register -/

/-- Five times a byte is far below 65536, so the 16-bit product of FX29 loses nothing (R163). -/
theorem zextByte_mul_five_toNat (b : Byte) : (zextByte b * 5#16).toNat = b.toNat * 5 := by
  have hb := b.isLt
  rw [BitVec.toNat_mul, zextByte_toNat, BitVec.toNat_ofNat]
  omega

/-- Settles O38: the words decode by O8, and each of the two is one write of I. -/
theorem indexLoads : Obligations.IndexLoads :=
  ⟨fun nnn => decodeOfEncodeGivesTheInstruction (.ldI nnn), fun x => decodeOfEncodeGivesTheInstruction (.ldF x), fun s =>
    ⟨fun nnn => ⟨_, rfl, zextNNN_toNat nnn, .setI rfl s _⟩,
      fun x => ⟨_, rfl, zextByte_mul_five_toNat (s.readV x), .setI rfl s _⟩⟩⟩

/-- Settles O39: I becomes a 16-bit sum. -/
theorem indexAddWrapsAtSixteenBits : Obligations.IndexAddWrapsAtSixteenBits := by
  intro s x
  refine ⟨_, rfl, ?_, .setI rfl s _⟩
  rw [State.setI_i, BitVec.toNat_add, zextByte_toNat]

end Sys2Proof.Safety
end

section
/-! PROOFS. The display (45_display R170 to R176). A draw is read as a set of pixels: the rows of a sprite are disjoint sets, so the
loop of R171 flips each pixel of their union once, and its collision flag speaks of the framebuffer it began with. -/

namespace Sys2Proof.Safety

open Sys2Proof.Machine

variable {P Q R : Nat → Nat → Prop} {a b c a' b' : Framebuffer × Bool} {s t : State} {x y : RegIx} {n : Nibble}

/-- Settles O45: CLS is one update of the framebuffer. -/
theorem clearDisplay : Obligations.ClearDisplay :=
  ⟨rfl, fun s => ⟨_, rfl, readPixel_clear, rfl, .showFrame rfl rfl s _⟩⟩

/-! ## Drawing a set of pixels -/

/-- Some pixel of the set is lit (R174). -/
def MeetsLit (P : Nat → Nat → Prop) (fb : Framebuffer) : Prop := ∃ px py, P px py ∧ readPixel fb px py = true

/-- From `a` to `b` a set of pixels of the screen was drawn: exactly its pixels are flipped, and the collision flag is raised where one
of them was lit. -/
structure Drawn (P : Nat → Nat → Prop) (a b : Framebuffer × Bool) : Prop where
  onScreen : ∀ {px py}, P px py → px < 64 ∧ py < 32
  flipped : ∀ {px py}, P px py → readPixel b.1 px py = !readPixel a.1 px py
  kept : ∀ {px py}, px < 64 → py < 32 → ¬ P px py → readPixel b.1 px py = readPixel a.1 px py
  flag : b.2 = true ↔ a.2 = true ∨ MeetsLit P a.1

/-- Drawing no pixel changes nothing. -/
theorem Drawn.empty (h : ∀ px py, ¬ P px py) (a : Framebuffer × Bool) : Drawn P a a where
  onScreen hP := absurd hP (h _ _)
  flipped hP := absurd hP (h _ _)
  kept _ _ _ := rfl
  flag := by simp [MeetsLit, h]

/-- Two disjoint sets drawn one after the other are their union drawn: the first draw leaves the pixels of the second as they were. -/
theorem Drawn.union (hab : Drawn P a b) (hbc : Drawn Q b c) (hdisjoint : ∀ {px py}, P px py → ¬ Q px py)
    (hR : ∀ px py, R px py ↔ P px py ∨ Q px py) : Drawn R a c := by
  have keptOnQ {px py} (hQ : Q px py) : readPixel b.1 px py = readPixel a.1 px py :=
    have ⟨hx, hy⟩ := hbc.onScreen hQ
    hab.kept hx hy fun hP => hdisjoint hP hQ
  have keptOnP {px py} (hP : P px py) : readPixel c.1 px py = readPixel b.1 px py :=
    have ⟨hx, hy⟩ := hab.onScreen hP
    hbc.kept hx hy (hdisjoint hP)
  refine ⟨fun hRp => ?_, fun hRp => ?_, fun hx hy hRp => ?_, ?_⟩
  · exact ((hR _ _).mp hRp).elim hab.onScreen hbc.onScreen
  · rcases (hR _ _).mp hRp with hP | hQ
    · rw [keptOnP hP, hab.flipped hP]
    · rw [hbc.flipped hQ, keptOnQ hQ]
  · rw [hR, not_or] at hRp
    rw [hbc.kept hx hy hRp.2, hab.kept hx hy hRp.1]
  · have hQlit : MeetsLit Q b.1 ↔ MeetsLit Q a.1 :=
      exists₂_congr fun _ _ => and_congr_right fun hQ => by rw [keptOnQ hQ]
    have hRlit : MeetsLit R a.1 ↔ MeetsLit P a.1 ∨ MeetsLit Q a.1 := by
      simp only [MeetsLit, hR, or_and_right, exists_or]
    rw [hbc.flag, hab.flag, hQlit, hRlit, or_assoc]

/-- A draw that begins with the flag down raises it exactly where the set meets a lit pixel. -/
theorem Drawn.flag_iff_meetsLit {f g : Framebuffer} {c : Bool} (h : Drawn P (f, false) (g, c)) : c = true ↔ MeetsLit P f :=
  h.flag.trans (or_iff_right Bool.false_ne_true)

/-- A set drawn twice leaves the framebuffer as it was, whatever the flags were (R176). -/
theorem Drawn.twice (hab : Drawn P a b) (hab' : Drawn P a' b') (hfb : a'.1 = b.1) : b'.1 = a.1 := by
  refine framebuffer_ext fun px py hx hy => ?_
  by_cases hP : P px py
  · rw [hab'.flipped hP, hfb, hab.flipped hP, Bool.not_not]
  · rw [hab'.kept hx hy hP, hfb, hab.kept hx hy hP]

/-! ## The rows of a sprite -/

/-- Some set bit of row `i` of the sprite at I, placed at (x0, y0), falls on column `px` and row `py` after wrapping. -/
def RowCovers (s : State) (x0 y0 i px py : Nat) : Prop :=
  ∃ j, j < 8 ∧ (memRead s.mem (s.i.toNat + i)).getLsbD (7 - j) = true ∧ (x0 + j) % 64 = px ∧ (y0 + i) % 32 = py

theorem spriteCovers_iff_exists_row (s : State) (x0 y0 n px py : Nat) :
    SpriteCovers s x0 y0 n px py ↔ ∃ i, i < n ∧ RowCovers s x0 y0 i px py := by
  simp only [SpriteCovers, RowCovers, exists_and_left]

/-- A sprite of one row more covers what its last row covers beside the others. -/
theorem spriteCovers_succ (s : State) (x0 y0 n px py : Nat) :
    SpriteCovers s x0 y0 (n + 1) px py ↔ SpriteCovers s x0 y0 n px py ∨ RowCovers s x0 y0 n px py := by
  simp only [spriteCovers_iff_exists_row, Nat.lt_succ_iff_lt_or_eq, or_and_right, exists_or, exists_eq_left]

/-- Rows less than 32 apart fall on different rows of the screen. -/
theorem not_rowCovers_of_spriteCovers {x0 y0 n px py : Nat} (hn : n < 32) (h : SpriteCovers s x0 y0 n px py) :
    ¬ RowCovers s x0 y0 n px py := by
  obtain ⟨i, j, hi, -, -, -, hy⟩ := h
  rintro ⟨-, -, -, -, hy'⟩
  omega

/-- One row of the loop draws the pixels the row covers (R171). -/
theorem drawRow_drawn (s : State) (x0 y0 i : Nat) (a : Framebuffer × Bool) :
    Drawn (RowCovers s x0 y0 i) a (drawRow s x0 y0 a i) := by
  obtain ⟨hpixel, hflag⟩ := foldl_drawColumn (memRead s.mem (s.dataAddr i)) x0 (y0 + i) a 8 le_rfl
  have hcovers {px py} (hx : px < 64) (hy : py < 32) : RowCovers s x0 y0 i px py ↔
      ∃ j, j < 8 ∧ spriteBit (memRead s.mem (s.dataAddr i)) j = true ∧ (x0 + j) % 64 = px % 64 ∧ (y0 + i) % 32 = py % 32 := by
    rw [Nat.mod_eq_of_lt hx, Nat.mod_eq_of_lt hy]
    rfl
  have honScreen {px py} (hP : RowCovers s x0 y0 i px py) : px < 64 ∧ py < 32 := by
    obtain ⟨j, -, -, hx, hy⟩ := hP
    omega
  refine ⟨honScreen, fun hP => ?_, fun hx hy hP => ?_, hflag.trans (or_congr_right ⟨?_, ?_⟩)⟩
  · obtain ⟨hx, hy⟩ := honScreen hP
    rw [drawRow, hpixel, decide_eq_true ((hcovers hx hy).mp hP), Bool.xor_true]
  · rw [drawRow, hpixel, decide_eq_false (mt (hcovers hx hy).mpr hP), Bool.xor_false]
  · rintro ⟨j, hj, hbit, hlit⟩
    refine ⟨_, _, ⟨j, hj, hbit, rfl, rfl⟩, ?_⟩
    rwa [readPixel_congr a.1 _ _ (x0 + j) (y0 + i) (Nat.mod_mod _ _) (Nat.mod_mod _ _)]
  · rintro ⟨-, -, ⟨j, hj, hbit, rfl, rfl⟩, hlit⟩
    refine ⟨j, hj, hbit, ?_⟩
    rwa [readPixel_congr a.1 _ _ (x0 + j) (y0 + i) (Nat.mod_mod _ _) (Nat.mod_mod _ _)] at hlit

/-- The loop over at most 32 rows draws the pixels the sprite covers (R171, R173, R174). -/
theorem drawSprite_drawn (s : State) (x0 y0 n : Nat) (hn : n ≤ 32) :
    Drawn (SpriteCovers s x0 y0 n) (s.fb, false) (drawSprite s x0 y0 n) := by
  induction n with
  | zero => exact .empty (by simp [SpriteCovers]) _
  | succ n ih =>
    have hloop : drawSprite s x0 y0 (n + 1) = drawRow s x0 y0 (drawSprite s x0 y0 n) n := by
      simp only [drawSprite, List.range_succ, List.foldl_append, List.foldl_cons, List.foldl_nil]
    rw [hloop]
    exact (ih (by omega)).union (drawRow_drawn s x0 y0 n _) (not_rowCovers_of_spriteCovers (by omega))
      (spriteCovers_succ s x0 y0 n)

/-! ## DXYN -/

@[simp] theorem flagByte_true : flagByte true = 0x01#8 := rfl

@[simp] theorem flagByte_false : flagByte false = 0x00#8 := rfl

theorem flagByte_eq_one_iff (c : Bool) : flagByte c = 0x01#8 ↔ c = true := by cases c <;> decide

/-- DXYN draws what its sprite covers, with the coordinates and I it finds, and VF is the collision flag (R171, R175). -/
theorem drawn_of_exec_drw (h : exec (.drw x y n) s = .next t) :
    ∃ c, t.readV vf = flagByte c ∧
      Drawn (SpriteCovers s (s.readV x).toNat (s.readV y).toNat n.toNat) (s.fb, false) (t.fb, c) := by
  cases h
  have hn : n.toNat ≤ 32 := by omega
  exact ⟨_, State.readV_setFlag_same _ _, drawSprite_drawn s _ _ _ hn⟩

/-- Settles O46: the pixels and the flag are those of the set drawn, and the frame is that of O6. -/
theorem drawXorsTheSpritePixelwise : Obligations.DrawXorsTheSpritePixelwise := by
  intro s x y n
  have hexec : exec (.drw x y n) s = .next _ := rfl
  obtain ⟨c, hvf, hdrawn⟩ := drawn_of_exec_drw hexec
  refine ⟨_, hexec, fun px py hx hy => ⟨hdrawn.flipped, hdrawn.kept hx hy⟩, fun hlit => ?_, fun hdark => ?_, rfl,
    exec_unchanged hexec⟩
  · rw [hvf, hdrawn.flag_iff_meetsLit.mpr hlit, flagByte_true]
  · rw [hvf, Bool.eq_false_iff.mpr (mt hdrawn.flag_iff_meetsLit.mp hdark), flagByte_false]

/-- What a sprite covers is determined by memory and I. -/
theorem spriteCovers_congr {u : State} (hmem : u.mem = s.mem) (hi : u.i = s.i) : SpriteCovers u = SpriteCovers s := by
  unfold SpriteCovers
  rw [hmem, hi]

/-- Settles O47: both draws are of the same set of pixels, the second beginning with what the first left. -/
theorem drawingTwiceRestores : Obligations.DrawingTwiceRestores := by
  intro s t u w x y n hfirst hfb hmem hi hx hy hsecond
  obtain ⟨c, -, hdrawn⟩ := drawn_of_exec_drw hfirst
  obtain ⟨d, hvf, hagain⟩ := drawn_of_exec_drw hsecond
  rw [spriteCovers_congr hmem hi, hx, hy, hfb] at hagain
  exact ⟨hdrawn.twice hagain rfl, hvf ▸ (flagByte_eq_one_iff d).trans hagain.flag_iff_meetsLit⟩

end Sys2Proof.Safety
end

section
/-! PROOFS. Where DXYN needs more than one wrap (45_display R173, 60_exceptions R193). -/

namespace Sys2Proof.Safety

open Sys2Proof.Machine

/-- A sprite row meets DrawWrapRange at its own pixels only: its memory access meets another condition. -/
theorem drawWrapRange_mem_rowConditions (s : State) (x0 y0 i c r : Nat) :
    Condition.drawWrapRange c r ∈ rowConditions s x0 y0 i ↔
      ∃ j, j < 8 ∧ (memRead s.mem (s.i.toNat + i)).getLsbD (7 - j) = true ∧ c = x0 + j ∧ r = y0 + i ∧
        (128 ≤ c ∨ 64 ≤ r) := by
  simp only [rowConditions, List.mem_append, mem_memCondition, reduceCtorEq, false_and, false_or, List.mem_flatMap, List.mem_range,
    mem_wrapCondition, Condition.drawWrapRange.injEq]
  refine exists_congr fun j => and_congr_right fun _ => ⟨?_, ?_⟩
  · rintro ⟨⟨rfl, rfl⟩, hbit, hrange⟩
    exact ⟨hbit, rfl, rfl, hrange⟩
  · rintro ⟨hbit, rfl, rfl, hrange⟩
    exact ⟨⟨rfl, rfl⟩, hbit, hrange⟩

theorem drawWrapRange_mem_conditionsOf_drw (s : State) (x y : RegIx) (n : Nibble) (c r : Nat) :
    Condition.drawWrapRange c r ∈ conditionsOf (.drw x y n) s ↔
      ∃ i j, i < n.toNat ∧ j < 8 ∧ (memRead s.mem (s.i.toNat + i)).getLsbD (7 - j) = true ∧
        c = (s.readV x).toNat + j ∧ r = (s.readV y).toNat + i ∧ (128 ≤ c ∨ 64 ≤ r) := by
  simp only [conditionsOf, List.mem_flatMap, List.mem_range, drawWrapRange_mem_rowConditions, exists_and_left]

/-- Settles O48: in the domain of R173 the last column is below 128 and the last row below 64. -/
theorem drawDomainNeedsAtMostOneWrap : Obligations.DrawDomainNeedsAtMostOneWrap := by
  refine fun s x y n => ⟨drawWrapRange_mem_conditionsOf_drw s x y n, fun hx hy c r hmem => ?_⟩
  obtain ⟨i, j, hi, hj, -, hc, hr, hrange⟩ := (drawWrapRange_mem_conditionsOf_drw s x y n c r).mp hmem
  omega

end Sys2Proof.Safety
end

section
/-! PROOFS. The delay timer and the placeholders (46_timer_misc R181 to R185): FX07 reads DT after the tick, FX15 writes it after the
tick, so the first even SC that counts against the value written is one of a later step. -/

namespace Sys2Proof.Safety

open Sys2Proof.Machine

/-! ## The even values of SC in a run -/

/-- Every second of the `k` values from `n` on is even, beginning with `n` itself where it is. -/
theorem countP_even_range (n k : Nat) :
    ((List.range k).countP fun m => (n + m) % 2 == 0) = (k + (n + 1) % 2) / 2 := by
  induction k with
  | zero =>
    rw [List.range_zero, List.countP_nil]
    omega
  | succ k ih =>
    rw [List.range_succ, List.countP_append, ih, List.countP_singleton]
    simp only [beq_iff_eq]
    split <;> omega

/-- A countdown from `v` that takes one off at each of these even values is over after 2v - 1 or 2v of them, by the parity of `n`. -/
theorem countdown_eq_zero_iff (v n k : Nat) :
    v - min v ((List.range k).countP fun m => (n + m) % 2 == 0) = 0 ↔ (if n % 2 = 0 then 2 * v - 1 else 2 * v) ≤ k := by
  rw [countP_even_range]
  split <;> omega

/-! ## A step that executes FX07 or FX15 -/

/-- FX07 reads DT after the tick of its own step (R181). -/
theorem readV_toNat_of_step_ldVxDt {s t : State} {x : RegIx} (he : executed s = some (.ldVxDt x)) (h : step s = .next t) :
    (t.readV x).toNat = if (s.sc + 1) % 2 = 0 then s.dt.toNat - 1 else s.dt.toNat := by
  cases (step_of_executed he).symm.trans h
  rw [State.readV_writeV_same, preAdvance_dt, tick_dt_toNat]

/-- FX15 leaves the full value in DT, one step on (R182). -/
theorem sc_dt_of_step_ldDtVx {s t : State} {x : RegIx} (he : executed s = some (.ldDtVx x)) (h : step s = .next t) :
    t.sc = s.sc + 1 ∧ t.dt = s.readV x := by
  obtain ⟨hsc, -, hwrite⟩ := everyStepCountsAndTicks s t h
  exact ⟨hsc, hwrite x he⟩

/-- Settles O49: the words decode by O8, the write is the last thing an FX15 step does, and the countdown is the cadence of O18 from the
state that step leaves. -/
theorem timerReadAndWrite : Obligations.TimerReadAndWrite := by
  refine ⟨fun x => ⟨decodeOfEncodeGivesTheInstruction (.ldVxDt x), decodeOfEncodeGivesTheInstruction (.ldDtVx x)⟩,
    fun s x => ⟨exec_write rfl, _, rfl, rfl, .setDt rfl s _⟩, fun s x he => ?_, fun s x he => ?_, ?_⟩
  · obtain ⟨t, ht⟩ := step_completes s
    exact ⟨t, ht, readV_toNat_of_step_ldVxDt he ht⟩
  · obtain ⟨t, ht⟩ := step_completes s
    exact ⟨t, ht, (sc_dt_of_step_ldDtVx he ht).2⟩
  · intro s t u x h he hstep hquiet hnever hrun
    obtain ⟨hsc, hdt⟩ := sc_dt_of_step_ldDtVx he hstep
    obtain ⟨-, hcount⟩ := timerCadenceOverAnyRun h t u hquiet hnever hrun
    rw [hsc, hdt] at hcount
    refine ⟨hcount, ?_⟩
    rw [← BitVec.toNat_inj, hcount, BitVec.toNat_ofNat, Nat.zero_mod, countdown_eq_zero_iff]
    simp only [Nat.succ_mod_two_eq_zero_iff]

/-- Settles O50: the FX07 step ticks once more, and its new SC is even exactly where that of the FX15 step is odd. -/
theorem timerReadBackDependsOnParity : Obligations.TimerReadBackDependsOnParity := by
  intro s t u x y hwrite hst hread htu
  obtain ⟨hsc, hdt⟩ := sc_dt_of_step_ldDtVx hwrite hst
  rw [readV_toNat_of_step_ldVxDt hread htu, hsc, hdt]
  simp only [Nat.succ_mod_two_eq_zero_iff]

/-! ## The placeholders -/

/-- Settles O51: the words decode by O8, and where the meaning answers the same state, the step is the tick and the pre-advance. -/
theorem placeholdersChangeNothing : Obligations.PlaceholdersChangeNothing := by
  intro s x
  refine ⟨decodeOfEncodeGivesTheInstruction (.ldVxK x), decodeOfEncodeGivesTheInstruction (.ldStVx x), rfl, rfl, ?_⟩
  rintro (he | he)
  · exact step_of_executed he
  · exact step_of_executed he

end Sys2Proof.Safety
end

section
/-! PROOFS. What the host does between steps (60_exceptions R205 to R208), and the launch state (70_reset R228). -/

namespace Sys2Proof.Safety

open Sys2Proof.Machine

variable {img : List Byte} {s : State}

/-- Settles O55: a load writes memory alone, by the two rules of the loader; the other moves are their definitions. -/
theorem hostMovesWriteOnlyTheirField : Obligations.HostMovesWriteOnlyTheirField := fun s =>
  ⟨rfl, rfl, fun _ => rfl, rfl, fun _ hfit =>
    ⟨rfl, memRead_load_at s hfit, fun _ ha hout => memRead_load_ne s hfit ha hout⟩⟩

theorem launch_loaded (hfit : imageFits img = true) : Loaded img (launch img) :=
  ⟨hfit, memWriteList_wf reset_mem_wf progBase img, memRead_load_at State.reset hfit,
    fun _ ha hout => memRead_load_ne State.reset hfit ha hout⟩

/-- A byte belongs to the image or holds its reset contents, so two states loaded with one image read alike, and memory in canonical
form is what it reads as (log 1). -/
theorem Loaded.mem_eq {t : State} (hs : Loaded img s) (ht : Loaded img t) : s.mem = t.mem := by
  obtain ⟨-, hswf, hsin, hsout⟩ := hs
  obtain ⟨-, htwf, htin, htout⟩ := ht
  refine memory_ext hswf htwf fun a ha => ?_
  by_cases hout : a < progBase ∨ progBase + img.length ≤ a
  · rw [hsout a ha hout, htout a ha hout]
  · obtain ⟨k, rfl⟩ := Nat.exists_eq_add_of_le (show progBase ≤ a by omega)
    have hk : k < img.length := by omega
    rw [hsin k hk, htin k hk]

/-- Settles O56: Loaded leaves one memory, Started one running flag, and AfterReset every other field but the draw index. -/
theorem launchPremisesLeaveOneState : Obligations.LaunchPremisesLeaveOneState := by
  intro img s hfit
  constructor
  · rintro ⟨hload, hrun, hreset⟩
    have hmem : s.mem = (launch img).mem := hload.mem_eq (launch_loaded hfit)
    have hrunning : s.running = true := hrun
    calc s = { s with mem := (launch img).mem, running := true } := by rw [← hmem, ← hrunning]
      _ = { launch img with rndIndex := s.rndIndex } :=
            congrArg (fun u : State => { u with mem := (launch img).mem, running := true }) hreset
  · intro hs
    rw [hs]
    exact ⟨launch_loaded hfit, rfl, rfl⟩

end Sys2Proof.Safety
end

section
/-! PROOFS. The two ends of a run with a quiet host (70_reset R237). -/

namespace Sys2Proof.Safety

open Sys2Proof.Machine

variable {h : Schedule} {s t u : State}

theorem quiet_concat (h : Schedule) (ms : List HostMove) :
    Schedule.quiet (h ++ [ms]) = (Schedule.quiet h && ms.all HostMove.quiet) := by
  simp [Schedule.quiet]

/-- Before its last step, a run that ends was still running: the first state is started, and a later one is not the end. -/
theorem EndsAfter.running_before {ms : List HostMove} (hs : Started s) (hend : EndsAfter (h ++ [ms]) s t)
    (hu : hostedRun h s = .next u) : u.running = true := by
  obtain ⟨-, -, -, -, hfirst⟩ := hend
  rcases Nat.eq_zero_or_pos h.length with hzero | hpos
  · cases List.length_eq_zero_iff.mp hzero
    cases hu
    exact hs
  · exact hfirst h.length hpos (by simp) u (by rwa [List.take_left])

/-- A step that ends a run found PC out of range or executed 00EE on the empty stack (R191, R192). -/
theorem step_stops (hstep : step s = .next t) (hs : s.running = true) (ht : t.running = false) :
    pcLimit ≤ s.pc.toNat ∨ (executed s = some .ret ∧ s.stack = []) := by
  obtain ⟨-, -, hrunning⟩ := coreSideOfTheHostFlags s t hstep
  rcases Nat.lt_or_ge s.pc.toNat pcLimit with hlt | hge
  · refine .inr (by_contra fun hret => ?_)
    exact Bool.false_ne_true (ht.symm.trans (hrunning.mpr ⟨hs, hlt, hret⟩))
  · exact .inl hge

/-- Settles O53: the moves before the last step leave all that decides how it stops. -/
theorem runsEndInTwoWays : Obligations.RunsEndInTwoWays := by
  intro h s t hs hend
  have ⟨hquiet, hne, hrun, ht, _⟩ := hend
  obtain ⟨h, ms, rfl⟩ := (List.eq_nil_or_concat' h).resolve_left hne
  obtain ⟨u, hu, hstep⟩ := hostedRun_concat.mp hrun
  rw [quiet_concat, Bool.and_eq_true] at hquiet
  obtain ⟨k, d, hmoves⟩ := HostMove.applyAll_quiet hquiet.2 u
  rw [hmoves] at hstep
  rw [EndsClean, List.dropLast_concat]
  have hrunning : u.running = true := hend.running_before hs hu
  rcases step_stops hstep hrunning ht with hpc | hret
  · exact .inl ⟨hend, u, hu, hpc⟩
  · exact .inr ⟨u, hu, hret⟩

end Sys2Proof.Safety
end

section
/-! PROOFS. What a quiet host reaches (70_reset R234): the keys through EX9E and EXA1, and nothing through the draw flag. -/

namespace Sys2Proof.Safety

open Sys2Proof.Machine

variable {i : Instr} {s t s' t' : State}

/-! ## The draw flag, which no step reads (R32) -/

/-- The state with the draw flag set. -/
def raiseDraw (s : State) : State := { s with draw := true }

theorem skipIf_raiseDraw (s : State) (c : Bool) : (raiseDraw s).skipIf c = raiseDraw (s.skipIf c) := by cases c <;> rfl

/-- A 00EE reads the stack alone, in both its forms. -/
theorem execRet_raiseDraw (h : execRet s = .next t) : execRet (raiseDraw s) = .next (raiseDraw t) := by
  rcases execRet_cases h with ⟨older, a, hs, rfl⟩ | ⟨hs, rfl⟩
  · exact execRet_of_stack_concat hs
  · exact execRet_of_stack_nil hs

/-- No instruction reads the draw flag, and the two that write it set it. -/
theorem exec_raiseDraw (h : exec i s = .next t) : exec i (raiseDraw s) = .next (raiseDraw t) := by
  cases i with
  | ret => exact execRet_raiseDraw h
  | seImm | sneImm | seReg | sneReg | skp | sknp =>
    cases h
    exact congrArg _ (skipIf_raiseDraw s _)
  | ldRegs x =>
    cases h
    exact congrArg _ (List.foldl_hom raiseDraw fun _ _ => rfl)
  | _ =>
    cases h
    rfl

theorem step_raiseDraw (h : step s = .next t) : step (raiseDraw s) = .next (raiseDraw t) := by
  rcases step_cases h with ⟨hpc, -, rfl⟩ | ⟨i, -, he, hexec⟩ | ⟨hpc, he, rfl⟩
  · exact stepWithPcOutOfRangeHalts (raiseDraw s) hpc
  · exact (step_of_executed (s := raiseDraw s) he).trans (exec_raiseDraw hexec)
  · rw [step_of_not_executed (s := raiseDraw s) he, (pcOutOfRange_eq_false (raiseDraw s)).mpr hpc]
    rfl

/-! ## What a quiet host does not reach -/

/-- The state but for the two fields a quiet host writes, which are set to fixed values. -/
def withoutHost (s : State) : State := raiseDraw ((Input.keys 0#16).put s)

theorem executed_withoutHost (s : State) : executed (withoutHost s) = executed s := rfl

theorem exists_of_withoutHost_eq (h : withoutHost s' = withoutHost s) : ∃ k d, s' = { s with keys := k, draw := d } :=
  ⟨s'.keys, s'.draw, congrArg (fun u : State => { u with keys := s'.keys, draw := s'.draw }) h⟩

theorem withoutHost_applyAll {ms : List HostMove} (hq : ms.all HostMove.quiet = true) (s : State) :
    withoutHost (HostMove.applyAll ms s) = withoutHost s := by
  obtain ⟨k, d, hm⟩ := HostMove.applyAll_quiet hq s
  rw [hm]
  rfl

/-- A step that executes neither EX9E nor EXA1 takes no notice of the two fields. -/
theorem step_withoutHost (hne : ∀ i, executed s = some i → ¬ ∃ x, i = .skp x ∨ i = .sknp x) (h : step s = .next t) :
    step (withoutHost s) = .next (withoutHost t) := by
  refine step_raiseDraw (Input.step_put (fun i hi hread => hne i hi ?_) h)
  cases hread with
  | skp => exact ⟨_, .inl rfl⟩
  | sknp => exact ⟨_, .inr rfl⟩

/-- Two states that agree but for the two fields step to states that do. -/
theorem step_congr_withoutHost (hne : ∀ i, executed s = some i → ¬ ∃ x, i = .skp x ∨ i = .sknp x)
    (heq : withoutHost s' = withoutHost s) (h : step s = .next t) (h' : step s' = .next t') :
    withoutHost t' = withoutHost t := by
  have hexecuted : executed s' = executed s := by
    rw [← executed_withoutHost s', heq, executed_withoutHost]
  have hstep' := step_withoutHost (hexecuted ▸ hne) h'
  rw [heq, step_withoutHost hne h] at hstep'
  exact (Host.Outcome.next.inj hstep').symm

/-- Runs of one length under two quiet hosts, from states that agree but for the two fields, reach states that do. -/
theorem hostedRun_congr_withoutHost {a b : Schedule} (ha : a.quiet = true) (hb : b.quiet = true) (hlen : a.length = b.length)
    (hne : NeverExecutes (fun i => ∃ x, i = .skp x ∨ i = .sknp x) a s) (heq : withoutHost s' = withoutHost s)
    (h : hostedRun a s = .next t) (h' : hostedRun b s' = .next t') : withoutHost t' = withoutHost t := by
  induction a generalizing b s s' with
  | nil =>
    cases List.length_eq_zero_iff.mp hlen.symm
    cases h
    cases h'
    exact heq
  | cons ms a ih =>
    cases b with
    | nil => cases hlen
    | cons ms' b =>
      simp only [Schedule.quiet, List.all_cons, Bool.and_eq_true] at ha hb
      obtain ⟨u, hstep, hrest⟩ := hostedRun_cons.mp h
      obtain ⟨u', hstep', hrest'⟩ := hostedRun_cons.mp h'
      obtain ⟨hfirst, htail⟩ := neverExecutes_cons hne hstep
      have hmoves : withoutHost (HostMove.applyAll ms' s') = withoutHost (HostMove.applyAll ms s) := by
        rw [withoutHost_applyAll ha.1, withoutHost_applyAll hb.1, heq]
      exact ih ha.2 hb.2 (Nat.succ.inj hlen) htail (step_congr_withoutHost hfirst hmoves hstep hstep') hrest hrest'

/-- Settles O57: both runs begin in one state, and the second completes (O16). -/
theorem quietHostActsThroughKeySkipsOnly : Obligations.QuietHostActsThroughKeySkipsOnly := by
  intro a b s t ha hb hlen hne h
  obtain ⟨t', h'⟩ := hostedRun_completes b s
  obtain ⟨k, d, rfl⟩ := exists_of_withoutHost_eq (hostedRun_congr_withoutHost ha hb hlen hne rfl h h')
  exact ⟨k, d, h'⟩

end Sys2Proof.Safety
end

section
/-! PROOFS. The machine with no program (70_reset R225). -/

namespace Sys2Proof.Safety

open Sys2Proof.Machine

/-- The state after `k` reserved words: PC and SC have moved on, and DT is zero and stays so. -/
def idle (k : Nat) : State := { launch [] with pc := BitVec.ofNat 16 (0x200 + 2 * k), sc := Config.scReset + k }

theorem idle_pc_toNat {k : Nat} (hk : k ≤ 1792) : (idle k).pc.toNat = 0x200 + 2 * k := by
  rw [idle, BitVec.toNat_ofNat]
  omega

/-- Above the font, memory after reset is zero (R37). -/
theorem memRead_idle (k : Nat) {a : Nat} (hfont : 80 ≤ a) (ha : a < 4096) : memRead (idle k).mem a = 0x00#8 := by
  obtain ⟨-, -, hzero, -⟩ := resetPutsEveryFieldAtItsValue
  exact hzero a hfont ha

theorem decodeWord_fetch_idle {k : Nat} (hk : k < 1792) :
    decodeWord (fetch (idle k)) = .error (.reservedFamily0 0x0000#16) := by
  have hpc := idle_pc_toNat hk.le
  rw [fetch, memRead_idle k (by omega) (by omega), memRead_idle k (by omega) (by omega)]
  rfl

theorem executed_idle {k : Nat} (hk : k < 1792) : executed (idle k) = none := by
  rw [executed_eq, decodeWord_fetch_idle hk]
  exact ite_self none

theorem step_idle {k : Nat} (hk : k < 1792) : step (idle k) = .next (idle (k + 1)) := by
  have hpc := idle_pc_toNat hk.le
  have hnext : (idle k).pc + 2#16 = (idle (k + 1)).pc := (BitVec.ofNat_add _ _).symm
  rw [stepOnReservedWordOnlyAdvances (idle k) _ (by omega) (decodeWord_fetch_idle hk), hnext]
  simp only [show (idle k).dt = 0x00#8 from rfl, BitVec.toNat_ofNat, Nat.zero_mod, Nat.lt_irrefl, and_false, if_false]
  rfl

theorem core_run_succ {k : Nat} {s t u : State} (hrun : core.run k s = .next u) (hstep : step u = .next t) :
    core.run (k + 1) s = .next t := by
  refine (hostedRun_replicate (k + 1) s).symm.trans ?_
  rw [List.replicate_succ']
  exact hostedRun_concat.mpr ⟨u, (hostedRun_replicate k s).trans hrun, hstep⟩

theorem core_run_idle {k : Nat} (hk : k ≤ 1792) : core.run k (launch []) = .next (idle k) := by
  induction k with
  | zero => rfl
  | succ k ih => exact core_run_succ (ih (by omega)) (step_idle hk)

/-- Settles O54: 1792 reserved words, then the halt of O15. -/
theorem emptyMachineRunsOffTheEnd : Obligations.EmptyMachineRunsOffTheEnd := by
  refine ⟨fun m hm => ⟨idle m, core_run_idle hm.le, executed_idle hm, idle_pc_toNat hm.le⟩,
    ⟨idle 1792, core_run_idle le_rfl, rfl, rfl, rfl⟩, ?_⟩
  have hhalt := stepWithPcOutOfRangeHalts (idle 1792) (idle_pc_toNat le_rfl).ge
  exact ⟨_, core_run_succ (core_run_idle le_rfl) hhalt, rfl, rfl, rfl⟩

end Sys2Proof.Safety
end

section
/-! PROOFS. Which step meets which of the named conditions (60_exceptions R193 to R198). -/

namespace Sys2Proof.Safety

open Sys2Proof.Machine

variable {i : Instr} {s : State}

/-- How many bytes at I an instruction accesses (R164 to R166, R171). -/
def accessCount : Instr → Nat
  | .ldB _ => 3
  | .stRegs x | .ldRegs x => x.toNat + 1
  | .drw _ _ n => n.toNat
  | _ => 0

/-- The executed instruction accesses the byte at offset `k`, form by form. -/
theorem accesses_iff (o : Option Instr) (k : Nat) :
    (∃ i, o = some i ∧ k < accessCount i) ↔
      (∃ x, o = some (.ldB x) ∧ k < 3) ∨ (∃ x, o = some (.stRegs x) ∧ k ≤ x.toNat) ∨
      (∃ x, o = some (.ldRegs x) ∧ k ≤ x.toNat) ∨ (∃ x y n, o = some (.drw x y n) ∧ k < n.toNat) := by
  cases o with
  | none => simp
  | some i => cases i <;> simp [accessCount, Nat.lt_succ_iff]

/-- Some set bit of the sprite of DXYN has the unreduced column `c` and row `r`, and one of the two needs more than one wrap (R173). -/
def WrapsTwice (s : State) (x y : RegIx) (n : Nibble) (c r : Nat) : Prop :=
  ∃ i j, i < n.toNat ∧ j < 8 ∧ (memRead s.mem (s.i.toNat + i)).getLsbD (7 - j) = true ∧
    c = (s.readV x).toNat + j ∧ r = (s.readV y).toNat + i ∧ (128 ≤ c ∨ 64 ≤ r)

theorem drawWrapRange_mem_iff_wrapsTwice (s : State) (x y : RegIx) (n : Nibble) (c r : Nat) :
    Condition.drawWrapRange c r ∈ conditionsOf (.drw x y n) s ↔ WrapsTwice s x y n c r :=
  drawWrapRange_mem_conditionsOf_drw s x y n c r

/-- The conditions of one instruction, all of them (R193). -/
theorem mem_conditionsOf (i : Instr) (s : State) (m : Condition) :
    m ∈ conditionsOf i s ↔
      (i = .ret ∧ s.stack = [] ∧ m = .stackUnderflow (s.pc - 2#16)) ∨
      (∃ k, k < accessCount i ∧ 0x1000 ≤ s.dataAddr k ∧ m = .memAddressOverflow (s.dataAddr k)) ∨
      (∃ x, (i = .skp x ∨ i = .sknp x) ∧ 15 < (s.readV x).toNat ∧ m = .keyIndexRange (s.readV x)) ∨
      (∃ x y n c r, i = .drw x y n ∧ WrapsTwice s x y n c r ∧ m = .drawWrapRange c r) := by
  cases i with
  | ret => by_cases hs : s.stack = [] <;> simp [conditionsOf, accessCount, hs]
  | skp | sknp => simp [conditionsOf, accessCount, mem_keyCondition, and_comm]
  | ldB | stRegs | ldRegs => simp [conditionsOf, accessCount, mem_memCondition, memSize, and_comm]
  | drw x y n =>
    cases m with
    | drawWrapRange c r => simp [drawWrapRange_mem_iff_wrapsTwice]
    | _ => simp [conditionsOf, rowConditions, mem_memCondition, mem_wrapCondition, accessCount, memSize, and_comm]
  | _ => simp [conditionsOf, accessCount]

theorem pc_lt_of_executed (h : executed s = some i) : s.pc.toNat < 0x1000 := by
  by_contra hge
  exact nomatch h.symm.trans (if_pos (Nat.not_lt.mp hge))

/-- The conditions of a step: two of the word at PC, and those of the instruction executed. -/
theorem mem_raised_iff (s : State) (m : Condition) :
    m ∈ raised s ↔
      (s.pc = 0x0FFF#16 ∧ m = .fetchOverrun s.pc) ∨
      (s.pc.toNat < 0x1000 ∧ executed s = none ∧ m = .reservedOpcode (fetch s)) ∨
      ∃ i, executed s = some i ∧ m ∈ conditionsOf i (preAdvance (tick s)) := by
  rw [mem_raised]
  constructor
  · rintro ⟨hpc, hoverrun | hreserved | hexec⟩
    · exact .inl hoverrun
    · exact .inr (.inl ⟨hpc, hreserved⟩)
    · exact .inr (.inr hexec)
  · rintro (⟨hpc, hm⟩ | ⟨hpc, hreserved⟩ | ⟨i, he, hm⟩)
    · exact ⟨by rw [hpc]; decide, .inl ⟨hpc, hm⟩⟩
    · exact ⟨hpc, .inr (.inl hreserved)⟩
    · exact ⟨pc_lt_of_executed he, .inr (.inr ⟨i, he, hm⟩)⟩

/-! ## The conditions of an executed instruction, from the state its step begins in -/

theorem memAddressOverflow_mem_raised (s : State) (a : Nat) :
    Condition.memAddressOverflow a ∈ raised s ↔
      ∃ i, executed s = some i ∧ ∃ k, k < accessCount i ∧ 0x1000 ≤ s.dataAddr k ∧ a = s.dataAddr k := by
  have hdata (k : Nat) : (preAdvance (tick s)).dataAddr k = s.dataAddr k := rfl
  simp [mem_raised_iff, mem_conditionsOf, hdata]

theorem keyIndexRange_mem_raised (s : State) (b : Byte) :
    Condition.keyIndexRange b ∈ raised s ↔
      ∃ i, executed s = some i ∧ ∃ x, (i = .skp x ∨ i = .sknp x) ∧ 15 < (s.readV x).toNat ∧ b = s.readV x := by
  simp [mem_raised_iff, mem_conditionsOf]

theorem drawWrapRange_mem_raised (s : State) (c r : Nat) :
    Condition.drawWrapRange c r ∈ raised s ↔ ∃ x y n, executed s = some (.drw x y n) ∧ WrapsTwice s x y n c r := by
  have hwraps : WrapsTwice (preAdvance (tick s)) = WrapsTwice s := rfl
  simp [mem_raised_iff, mem_conditionsOf, hwraps]

/-- Settles O52: each condition is told from the others by its name, and the instructions that meet it are those of
`mem_conditionsOf`. -/
theorem conditionsOfAStep : Obligations.ConditionsOfAStep := by
  intro s
  refine ⟨fun p => ?fetchOverrun, fun op => ?reservedOpcode, fun a => ?stackUnderflow, fun a => ?stackOverflow,
    fun a => ?memAddressOverflow, fun b => ?keyIndexRange, fun c r => ?drawWrapRange, fun hpc => ?halting⟩
  case fetchOverrun | stackUnderflow | stackOverflow => simp [mem_raised_iff, mem_conditionsOf]
  case reservedOpcode => simp [mem_raised_iff, mem_conditionsOf, fetch]
  case memAddressOverflow =>
    rw [memAddressOverflow_mem_raised]
    constructor
    · rintro ⟨i, he, k, hk, hge, rfl⟩
      exact ⟨hge, k, rfl, (accesses_iff _ k).mp ⟨i, he, hk⟩⟩
    · rintro ⟨hge, k, rfl, haccess⟩
      obtain ⟨i, he, hk⟩ := (accesses_iff _ k).mpr haccess
      exact ⟨i, he, k, hk, hge, rfl⟩
  case keyIndexRange =>
    rw [keyIndexRange_mem_raised]
    constructor
    · rintro ⟨i, he, x, rfl | rfl, hgt, rfl⟩
      · exact ⟨hgt, x, .inl he, rfl⟩
      · exact ⟨hgt, x, .inr he, rfl⟩
    · rintro ⟨hgt, x, he | he, rfl⟩
      · exact ⟨_, he, x, .inl rfl, hgt, rfl⟩
      · exact ⟨_, he, x, .inr rfl, hgt, rfl⟩
  case drawWrapRange => simp only [drawWrapRange_mem_raised, WrapsTwice, exists_and_left]
  case halting =>
    refine List.eq_nil_iff_forall_not_mem.mpr fun m hm => ?_
    obtain ⟨hlt, -⟩ := (mem_raised s m).mp hm
    exact Nat.not_lt.mpr hpc hlt

end Sys2Proof.Safety
end
